-- ==== Sys2Proof/Word.lean ====
section
/-! DEFINITION. The word types of the vm bytecode machine: the 32-bit unsigned word, the program byte and the
8-bit register index (spec/00_scope.md R3, R6). -/

namespace Sys2Proof

/-- R3: the only data type is the 32-bit unsigned word. -/
abbrev Word := BitVec 32

/-- One byte of the program (20_memory.md R40). -/
abbrev Byte := BitVec 8

/-- R64: a register index is the unsigned byte of its field, 0 to 255, neither scaled nor extended. -/
abbrev RegIndex := BitVec 8

end Sys2Proof
end

