-- ==== Sys2Proof/Config.lean ====
section
/-! DEFINITION. The implementation parameters of spec/00_scope.md R6 that are numbers. The machine has no value
that the spec leaves undefined, so no free value stands here; the open parameter REG_COUNT is data of each
state (the length of its register file), not a constant. -/

namespace Sys2Proof

/-- R6, D3: the least register count an implementation may choose. -/
def Config.minRegCount : Nat := 1

/-- R6, D3: the greatest register count, the number of values of an 8-bit index. -/
def Config.maxRegCount : Nat := 256

/-- DESIGN CHOICE (log entry 1), unsafe for a claim about `State.reset` alone: the spec leaves REG_COUNT open;
the one state `State.reset` takes 256 registers, under which every index a program can name is valid (R22).
No other definition of the model uses this number. -/
def Config.resetRegCount : Nat := 256

/-- R6, D4: the program length L is at most 2^32 - 1. -/
def Config.maxProgramLength : Nat := 2 ^ 32 - 1

end Sys2Proof
end

