-- ==== Sys2Proof/Syntax.lean ====
section
/-! DEFINITION. The instructions: one constructor per row of spec/opcode_table.json, in the declaration order of
spec/00_scope.md R2, with the operands of spec/10_state.md R25. -/

namespace Sys2Proof

/-- R2: "exactly the nine instructions". Operand names and order are those of R25. -/
inductive Instr where
  /-- R110: copy register `v2` into register `v1`. -/
  | mov (v1 v2 : RegIndex)
  /-- R111: load an immediate into register `v1`. -/
  | movi (v1 : RegIndex) (imm : Word)
  /-- R112: load an immediate into the accumulator. -/
  | ldai (imm : Word)
  /-- R113: copy register `v1` into the accumulator. -/
  | lda (v1 : RegIndex)
  /-- R114: copy the accumulator into register `v1`. -/
  | sta (v1 : RegIndex)
  /-- R130: add register `v1` into the accumulator. -/
  | add (v1 : RegIndex)
  /-- R131: decrement register `v1`. -/
  | dec (v1 : RegIndex)
  /-- R140: jump to `imm` when registers `v1` and `v2` are equal (the mnemonic is a name only, C1). -/
  | bne (v1 v2 : RegIndex) (imm : Word)
  /-- R150: send the accumulator to the output sink. -/
  | print
  deriving DecidableEq, Repr

/-- The register fields of an instruction, in declared order: the fields that R94 has checked. -/
def Instr.regFields : Instr → List RegIndex
  | .mov v1 v2 => [v1, v2]
  | .movi v1 _ => [v1]
  | .ldai _ => []
  | .lda v1 => [v1]
  | .sta v1 => [v1]
  | .add v1 => [v1]
  | .dec v1 => [v1]
  | .bne v1 v2 _ => [v1, v2]
  | .print => []

end Sys2Proof
end

