-- ==== Sys2Proof/WellFormed.lean ====
section
/-! DEFINITION. When an instruction is well formed. Every register byte and every immediate is a legal encoding
(spec/30_encoding.md R68), and the types of `Instr` hold exactly those values, so as an encoding every term is
well formed; the one check the spec makes on an instruction is that its register fields are valid indices of the
register file it runs on (spec/10_state.md R22). -/

namespace Sys2Proof

/-- R22: an index is valid when it is below REG_COUNT. -/
abbrev RegIndex.Valid (regCount : Nat) (r : RegIndex) : Prop :=
  r.toNat < regCount

/-- R22, R94: an instruction is well formed for a register file of `regCount` registers when every register field
of it, read or written, is a valid index. -/
abbrev Instr.WellFormed (regCount : Nat) (i : Instr) : Prop :=
  ∀ r ∈ i.regFields, RegIndex.Valid regCount r

end Sys2Proof
end

