-- ==== Sys2Proof/Decode.lean ====
section
/-! DEFINITION. The fixed opcode and format table, the decoder and the encoder (spec/30_encoding.md R60 to R73). -/

namespace Sys2Proof

/-- The nine instruction ids, in declaration order (R2, R66). -/
inductive Op where
  | mov | movi | ldai | lda | sta | add | dec | bne | print
  deriving DecidableEq, Repr

/-- R60: the three kinds of field. A register field carries its operand number `N` (R62). -/
inductive Field where
  | opcode
  | register (n : Nat)
  | immediate
  deriving DecidableEq, Repr

/-- What the decoder answers (R70): an instruction, or one of its two errors. -/
inductive Decoded where
  /-- The instruction whose fields the bytes hold. -/
  | instr (i : Instr)
  /-- R68: the opcode byte is none of 0x00 to 0x08. -/
  | unknownOpcode
  /-- R71: a legal opcode, and fewer bytes than its instruction has (DecodeError). -/
  | truncated
  deriving DecidableEq, Repr

/-- The id of an instruction. -/
def Instr.op : Instr → Op
  | .mov _ _ => .mov
  | .movi _ _ => .movi
  | .ldai _ => .ldai
  | .lda _ => .lda
  | .sta _ => .sta
  | .add _ => .add
  | .dec _ => .dec
  | .bne _ _ _ => .bne
  | .print => .print

/-- R61, R63: the immediate field of an instruction; `movi`, `ldai` and `bne` have one. -/
def Instr.imm : Instr → Option Word
  | .mov _ _ => none
  | .movi _ imm => some imm
  | .ldai imm => some imm
  | .lda _ => none
  | .sta _ => none
  | .add _ => none
  | .dec _ => none
  | .bne _ _ imm => some imm
  | .print => none

/-! ### The table -/

/-- R66: the opcode is the zero-based declaration index. DESIGN CHOICE of the spec (D2; log entry 5). -/
def Op.byte : Op → Byte
  | .mov => 0x00
  | .movi => 0x01
  | .ldai => 0x02
  | .lda => 0x03
  | .sta => 0x04
  | .add => 0x05
  | .dec => 0x06
  | .bne => 0x07
  | .print => 0x08

/-- R66, R68: the id an opcode byte selects; 0x09 to 0xFF select none (C4). -/
def Op.ofByte (b : Byte) : Option Op :=
  match b.toNat with
  | 0 => some .mov
  | 1 => some .movi
  | 2 => some .ldai
  | 3 => some .lda
  | 4 => some .sta
  | 5 => some .add
  | 6 => some .dec
  | 7 => some .bne
  | 8 => some .print
  | _ => none

/-- R61, R63: the fields of each instruction, in the order of their bytes. -/
def Op.fields : Op → List Field
  | .mov => [.opcode, .register 1, .register 2]
  | .movi => [.opcode, .register 1, .immediate]
  | .ldai => [.opcode, .immediate]
  | .lda => [.opcode, .register 1]
  | .sta => [.opcode, .register 1]
  | .add => [.opcode, .register 1]
  | .dec => [.opcode, .register 1]
  | .bne => [.opcode, .register 1, .register 2, .immediate]
  | .print => [.opcode]

/-- R60: how many bytes a field takes. -/
def Field.bytes : Field → Nat
  | .opcode => 1
  | .register _ => 1
  | .immediate => 4

/-- R62: the token a field is written as in a format token. -/
def Field.token : Field → String
  | .opcode => "opcode"
  | .register n => "_v" ++ toString n ++ "_8"
  | .immediate => "_imm_32"

/-- R62, R63: the format token of an instruction. -/
def Op.formatToken (o : Op) : String :=
  o.fields.foldl (fun text f => text ++ f.token) ""

/-- R61, R69: fields are packed without padding, so the length is the sum of the fields' bytes, a function of the
opcode alone. -/
def Op.length (o : Op) : Nat :=
  (o.fields.map Field.bytes).sum

/-- R72: how many register fields the table gives an instruction. -/
def Op.numRegFields (o : Op) : Nat :=
  (o.fields.filter fun f => f matches .register _).length

/-- R72: whether the table gives an instruction an immediate field. -/
def Op.hasImm (o : Op) : Bool :=
  o.fields.contains .immediate

/-- R69: the length of an instruction in bytes. -/
def Instr.length (i : Instr) : Nat :=
  i.op.length

/-- The length of the longest instruction, `bne` (R63). -/
def maxInstrLength : Nat := 7

/-! ### The decoder -/

/-- R65: an immediate from its four bytes in address order; the byte at the lowest address holds bits [7:0]. -/
def immOfBytes (b0 b1 b2 b3 : Byte) : Word :=
  b3 ++ b2 ++ b1 ++ b0

/-- R61, R70: read the operand fields of `o` from the bytes after the opcode byte; `none` when there are too few. -/
def Op.readFields : Op → List Byte → Option Instr
  | .mov, v1 :: v2 :: _ => some (.mov v1 v2)
  | .movi, v1 :: b0 :: b1 :: b2 :: b3 :: _ => some (.movi v1 (immOfBytes b0 b1 b2 b3))
  | .ldai, b0 :: b1 :: b2 :: b3 :: _ => some (.ldai (immOfBytes b0 b1 b2 b3))
  | .lda, v1 :: _ => some (.lda v1)
  | .sta, v1 :: _ => some (.sta v1)
  | .add, v1 :: _ => some (.add v1)
  | .dec, v1 :: _ => some (.dec v1)
  | .bne, v1 :: v2 :: b0 :: b1 :: b2 :: b3 :: _ => some (.bne v1 v2 (immOfBytes b0 b1 b2 b3))
  | .print, _ => some .print
  | _, _ => none

/-- R70: the decoder, on the program's bytes from the opcode byte on. The opcode is tested before the length (R164
order 2 before 3), and a truncated instruction is never completed with zeros (R71). R70 defines it only for
`PC < L`, where there is an opcode byte; with no byte at all it answers `truncated`, which `step` never asks for. -/
def decode : List Byte → Decoded
  | [] => .truncated
  | b :: rest =>
    match Op.ofByte b with
    | none => .unknownOpcode
    | some o =>
      match o.readFields rest with
      | none => .truncated
      | some i => .instr i

/-! ### The encoder -/

/-- R65: byte `k` of an immediate, byte 0 at the lowest address. -/
def immByte (imm : Word) (k : Nat) : Byte :=
  imm.extractLsb' (8 * k) 8

/-- R65: the four bytes of an immediate in address order. -/
def immBytes (imm : Word) : List Byte :=
  [immByte imm 0, immByte imm 1, immByte imm 2, immByte imm 3]

/-- R73, with the layout of R63: the bytes of an instruction in address order. -/
def encode : Instr → List Byte
  | .mov v1 v2 => [0x00, v1, v2]
  | .movi v1 imm => [0x01, v1] ++ immBytes imm
  | .ldai imm => [0x02] ++ immBytes imm
  | .lda v1 => [0x03, v1]
  | .sta v1 => [0x04, v1]
  | .add v1 => [0x05, v1]
  | .dec v1 => [0x06, v1]
  | .bne v1 v2 imm => [0x07, v1, v2] ++ immBytes imm
  | .print => [0x08]

/-- R73: `encode(id, regs, imm?)` of the tool chain, whose register operands are numbers: the opcode byte, each register
as one byte, then the immediate. It gives nothing for an operand list that is not the format's, and for a register
operand above 255, which is the encoder's OperandRangeError and never reaches the engine (R171). -/
def encodeOperands (o : Op) (regs : List Nat) (imm : Option Word) : Option (List Byte) :=
  if regs.length = o.numRegFields ∧ imm.isSome = o.hasImm ∧ ∀ n ∈ regs, n ≤ 255 then
    some (o.byte :: regs.map (BitVec.ofNat 8) ++ (imm.map immBytes).getD [])
  else none

/-! ### The host's numbering of an instruction's bits -/

/-- The `n` bytes of a number, the least significant first: the first byte of an instruction holds the bits the
opcode table numbers 7..0. -/
def bytesOfNat : Nat → Nat → List Byte
  | 0, _ => []
  | n + 1, w => BitVec.ofNat 8 w :: bytesOfNat n (w / 256)

/-- The bytes of an opcode-table word: `nbits` bits of `w`, and zeros up to the longest instruction. -/
def tableBytes (nbits w : Nat) : List Byte :=
  bytesOfNat maxInstrLength (w % 2 ^ nbits)

/-- The instruction the decoder reads from a word numbered as spec/opcode_table.json numbers its bits. -/
def decodeTableWord (nbits w : Nat) : Option Instr :=
  match decode (tableBytes nbits w) with
  | .instr i => some i
  | .unknownOpcode => none
  | .truncated => none

end Sys2Proof
end

