-- ==== Sys2Proof/Machine/State.lean ====
section
/-! DEFINITION. The state of one machine, as plain data: the architectural state of spec/10_state.md R20 and the
parameters of a run that R31 names (the program and its length; REG_COUNT is the length of the register file).
The faults, the refusals and the state after reset. -/

namespace Sys2Proof.Machine

/-- The three fault reasons of R29 and R160. The spec says what the machine does at each of them (R161: RUN becomes
Faulted(reason) and nothing else changes), so a step that raises one answers a NEXT state whose `run` holds the
reason; no definition of the model answers `Outcome.fault`. -/
inductive Fault where
  /-- R68, R92: raised by the decode phase of `step` when the opcode byte is above 0x08. Neither safe nor unsafe:
  it is the machine's own behaviour. -/
  | unknownOpcode
  /-- R71, R92: raised by the decode phase of `step` when fewer bytes than the instruction's length remain. Neither
  safe nor unsafe: it is the machine's own behaviour. -/
  | decodeError
  /-- R22, R94: raised by the range check of every meaning that has a register field, when a field is not below
  REG_COUNT. Neither safe nor unsafe: it is the machine's own behaviour. -/
  | registerOutOfRange
  deriving DecidableEq, Repr

/-- Why the model gives an instruction no meaning. -/
inductive Refusal where
  /-- Reserved for an arm of `exec` whose instruction has no meaning; safe. No arm raises it: all nine
  instructions have theirs. -/
  | notModelled (mnemonic : String)
  deriving DecidableEq, Repr

/-- R29: the run state. -/
inductive RunState where
  | running
  | halted
  | faulted (reason : Fault)
  deriving DecidableEq, Repr

/-- R40, R45: the program, the only memory: `L` bytes, read-only for the whole run (R41). `cells` lists the bytes
that differ from what an unlisted address below `len` reads as, at strictly rising addresses below `len`
(`Memory.wf`). -/
structure Memory where
  /-- `L`, the program length; 32 bits hold exactly 0 to 2^32 - 1 (D4). -/
  len : Word
  /-- The listed bytes. -/
  cells : List Host.Cell
  deriving DecidableEq, Repr

/-- R20 and R31: all the spec gives one machine. Nothing is hidden (R32). -/
structure State where
  /-- The register file `x[0..REG_COUNT-1]` (R21); its length is REG_COUNT (R6). -/
  regs : List Word
  /-- `ACC`, the accumulator, outside the file (R23). -/
  acc : Word
  /-- `PC`, a byte offset into the program (R26). -/
  pc : Word
  /-- `RUN` (R29). -/
  run : RunState
  /-- `OUT`, the values `print` has sent, oldest first (R30). -/
  out : List Word
  /-- `Prog[0..L-1]` and `L`, parameters of the run (R31). -/
  prog : Memory
  deriving DecidableEq, Repr

/-- R20: a machine whose registers all hold 0, as R33 creates it, for a register count and a program. -/
def State.created (regCount : Nat) (prog : Memory) : State :=
  { regs := List.replicate regCount 0
    acc := 0
    pc := 0
    run := .running
    out := []
    prog := prog }

/-- R33, R180: the machine right after reset. REG_COUNT is the parameter the spec leaves open (log entry 1), and no
program has been supplied (R181; log entry 2). -/
def State.reset : State :=
  State.created Config.resetRegCount { len := 0, cells := [] }

end Sys2Proof.Machine
end

