-- ==== Sys2Proof/Machine/Ops.lean ====
section
/-! DEFINITION. The named operations over the program memory, the registers, the accumulator, the PC, the run state
and the output: the primitives of spec/00_scope.md R8, the fault of spec/60_exceptions.md R161 and the reset of
spec/70_reset_and_hazards.md R180. -/

namespace Sys2Proof.Machine

/-! ### The program memory (20_memory.md R40 to R45) -/

/-- What an address below `L` that the cells do not list reads as. DESIGN CHOICE (log entry 3): the host supplies
every program byte (R181), so this is how the model writes down a zero byte. -/
def Memory.unlisted : Byte := 0

/-- The byte the cells give an address. -/
def Memory.lookup : List Host.Cell → Nat → Byte
  | [], _ => Memory.unlisted
  | (k, b) :: rest, a => if k = a then b else Memory.lookup rest a

/-- R45: `Prog[a]`; there is no byte at `L` and above. -/
def Memory.byteAt (m : Memory) (a : Nat) : Option Byte :=
  if a < m.len.toNat then some (Memory.lookup m.cells a) else none

/-- R8: `MemRead(a, 4)`, the four-byte little-endian value at `a`, defined only when `a + 4 ≤ L`. -/
def Memory.readWord (m : Memory) (a : Nat) : Option Word :=
  match m.byteAt a, m.byteAt (a + 1), m.byteAt (a + 2), m.byteAt (a + 3) with
  | some b0, some b1, some b2, some b3 => some (immOfBytes b0 b1 b2 b3)
  | _, _, _, _ => none

/-- R44, R71: at most `n` program bytes in increasing address order from `a`; no address at `L` or above is read. -/
def Memory.window (m : Memory) (a : Nat) : Nat → List Byte
  | 0 => []
  | n + 1 =>
    match m.byteAt a with
    | none => []
    | some b => b :: Memory.window m (a + 1) n

/-- The cells with one byte placed, in canonical form: a byte equal to the unlisted one has no entry. -/
def Memory.place : List Host.Cell → Nat → Byte → List Host.Cell
  | [], a, b => if b = Memory.unlisted then [] else [(a, b)]
  | (k, c) :: rest, a, b =>
    if a < k then
      if b = Memory.unlisted then (k, c) :: rest else (a, b) :: (k, c) :: rest
    else if a = k then
      if b = Memory.unlisted then rest else (a, b) :: rest
    else (k, c) :: Memory.place rest a b

/-- The host's supply of one program byte (R181); an address outside the program has none to supply. No
instruction calls it (R41). -/
def Memory.supply (m : Memory) (a : Nat) (b : Byte) : Memory :=
  if a < m.len.toNat then { m with cells := Memory.place m.cells a b } else m

/-- The host's supply of consecutive program bytes from `a` on. -/
def Memory.supplyAll (m : Memory) (a : Nat) : List Byte → Memory
  | [] => m
  | b :: rest => Memory.supplyAll (m.supply a b) (a + 1) rest

/-- The program grown to at least `n` bytes, as far as D4 allows; never shortened. -/
def Memory.extendTo (m : Memory) (n : Nat) : Memory :=
  { m with len := BitVec.ofNat 32 (max m.len.toNat (min n Config.maxProgramLength)) }

/-- R181: the program of a byte sequence (of at most 2^32 - 1 bytes, D4). -/
def Memory.ofBytes (bytes : List Byte) : Memory :=
  (Memory.extendTo { len := 0, cells := [] } bytes.length).supplyAll 0 bytes

/-- The cells are at strictly rising addresses from `lo` on and below `hi`, and none holds the unlisted byte. -/
def Memory.cellsWf : Nat → Nat → List Host.Cell → Bool
  | _, _, [] => true
  | lo, hi, (a, b) :: rest =>
    decide (lo ≤ a) && decide (a < hi) && decide (b ≠ Memory.unlisted) && Memory.cellsWf (a + 1) hi rest

/-- The canonical form of a program memory: equal programs are equal data. -/
def Memory.wf (m : Memory) : Bool :=
  Memory.cellsWf 0 m.len.toNat m.cells

/-! ### Registers, accumulator, PC and output -/

/-- R6, R20: REG_COUNT. -/
def State.regCount (s : State) : Nat :=
  s.regs.length

/-- R8: `x[r]`. It is legal only for `r < REG_COUNT`, and every meaning checks that first (R94), so the 0 given
beyond the file never reaches a run. -/
def State.readReg (s : State) (r : RegIndex) : Word :=
  s.regs.getD r.toNat 0

/-- R8: `x[r] <- v`, for `r < REG_COUNT`; beyond the file there is no register to write. -/
def State.writeReg (s : State) (r : RegIndex) (v : Word) : State :=
  { s with regs := s.regs.set r.toNat v }

/-- R8: `ACC <- v`. -/
def State.writeAcc (s : State) (v : Word) : State :=
  { s with acc := v }

/-- R8: `pc <- target`, an absolute byte offset (R142). -/
def State.jump (s : State) (target : Word) : State :=
  { s with pc := target }

/-- R93: `nextPc = PC + length(id)`, the address just past the instruction at `PC`. After a successful decode the
sum is at most `L`, so it does not wrap (R26); called outside `step`, it is taken mod 2^32 (log entry 9). -/
def State.nextPc (s : State) (o : Op) : Word :=
  s.pc + BitVec.ofNat 32 o.length

/-- R96: `pc <- nextPc`. -/
def State.advance (s : State) (o : Op) : State :=
  s.jump (s.nextPc o)

/-- R8, R30: `emit(v)`. The sink accepts every value at once (R152, D11; log entry 7). -/
def State.emit (s : State) (v : Word) : State :=
  { s with out := s.out ++ [v] }

/-! ### Ends of a run -/

/-- R91: the PC is at or past the end of the program. -/
def State.atEnd (s : State) : Bool :=
  decide (s.prog.len.toNat ≤ s.pc.toNat)

/-- R8, R91: `halt`; nothing but RUN changes. -/
def State.halt (s : State) : State :=
  { s with run := .halted }

/-- R8, R161: taking a fault. RUN becomes Faulted(reason) and nothing else changes: no vector, no saved state, and
`PC` still holds the faulting instruction's address. There is no return from it (R163). -/
def State.raiseFault (s : State) (reason : Fault) : State :=
  { s with run := .faulted reason }

/-! ### Creation and reset -/

/-- R180, D15: a reset, in any state: registers, accumulator, PC and run state as at creation, a new empty `OUT`, and
the run's parameters (REG_COUNT and the program, R31) as the host fixed them. -/
def State.applyReset (s : State) : State :=
  State.created s.regCount s.prog

/-- R181: the host fixes REG_COUNT and the program, then resets. -/
def State.boot (regCount : Nat) (program : List Byte) : State :=
  State.created regCount (Memory.ofBytes program)

/-- R6, R185: the parameters of a run are ones the host may choose: REG_COUNT in 1 to 256, and a program in the one
form that writes it down. -/
abbrev State.Configured (s : State) : Prop :=
  Config.minRegCount ≤ s.regCount ∧ s.regCount ≤ Config.maxRegCount ∧ s.prog.wf = true

/-! ### Fetch and decode (40_sequencer.md R90 phase 2) -/

/-- R44: the bytes `Prog[PC .. PC+len-1]` of the instruction at `PC`, its length taken from the opcode byte; fewer
where the program ends first. -/
def State.fetchBytes (s : State) : List Byte :=
  match s.prog.byteAt s.pc.toNat with
  | none => []
  | some b =>
    match Op.ofByte b with
    | none => [b]
    | some o => s.prog.window s.pc.toNat o.length

/-- R70, R72: the decoder's answer for this step. -/
def State.decoded (s : State) : Decoded :=
  decode s.fetchBytes

end Sys2Proof.Machine
end

