-- ==== Sys2Proof/Machine/Operands.lean ====
section
/-! DEFINITION. Operands: the accumulator-access modes (spec/10_state.md R24), the operand directions (R25) and the
range check that precedes every execute arm (spec/40_sequencer.md R94). The only operand forms are a register
field and an immediate, which is used as it stands (R65). -/

namespace Sys2Proof.Machine

/-- R24: whether an instruction reads or writes `ACC`. -/
inductive AccMode where
  | none | input | output | inout
  deriving DecidableEq, Repr

/-- R25: whether a register operand is read, written, or both. -/
inductive Direction where
  | input | output | inout
  deriving DecidableEq, Repr

/-- R24: the accumulator-access mode of each instruction. -/
def accMode : Op → AccMode
  | .mov => .none
  | .movi => .none
  | .ldai => .output
  | .lda => .output
  | .sta => .input
  | .add => .inout
  | .dec => .none
  | .bne => .none
  | .print => .input

/-- R23: the modes under which an instruction may read `ACC`. -/
def AccMode.reads : AccMode → Bool
  | .none => false
  | .input => true
  | .output => false
  | .inout => true

/-- R23: the modes under which an instruction may write `ACC`. -/
def AccMode.writes : AccMode → Bool
  | .none => false
  | .input => false
  | .output => true
  | .inout => true

/-- R25: the register operands of an instruction, in declared order, each with its direction. -/
def regOperands : Instr → List (Direction × RegIndex)
  | .mov v1 v2 => [(.output, v1), (.input, v2)]
  | .movi v1 _ => [(.output, v1)]
  | .ldai _ => []
  | .lda v1 => [(.input, v1)]
  | .sta v1 => [(.output, v1)]
  | .add v1 => [(.input, v1)]
  | .dec v1 => [(.inout, v1)]
  | .bne v1 v2 _ => [(.input, v1), (.input, v2)]
  | .print => []

/-- R25: a register operand that is read. -/
def Direction.reads : Direction → Bool
  | .input => true
  | .output => false
  | .inout => true

/-- R25: a register operand that is written. -/
def Direction.writes : Direction → Bool
  | .input => false
  | .output => true
  | .inout => true

/-- R25: register `r` is an operand the instruction reads. -/
def readsReg (i : Instr) (r : RegIndex) : Bool :=
  (regOperands i).any fun p => p.1.reads && decide (p.2 = r)

/-- R25: register `r` is an operand the instruction writes. -/
def writesReg (i : Instr) (r : RegIndex) : Bool :=
  (regOperands i).any fun p => p.1.writes && decide (p.2 = r)

/-- R22: the file has a register `r`, that is, `r` is below REG_COUNT, the length of the file. -/
def State.hasReg (s : State) (r : RegIndex) : Bool :=
  s.regs[r.toNat]?.isSome

/-- R94: every one of these register fields is below REG_COUNT. -/
def State.fieldsInRange (s : State) (fields : List RegIndex) : Bool :=
  fields.all s.hasReg

/-- R90 phases 3 and 4: with every register field in range the machine goes to `after`, the state the execute arm
leaves; otherwise it faults RegisterOutOfRange, once however many fields are out of range (R164), and nothing else
changes. -/
def rangeChecked (s : State) (fields : List RegIndex) (after : State) : Host.Outcome State Fault Refusal :=
  if s.fieldsInRange fields then .next after else .next (s.raiseFault .registerOutOfRange)

end Sys2Proof.Machine
end

