-- ==== Sys2Proof/Machine/Flags.lean ====
section
/-! DEFINITION. The machine has no flags (spec/10_state.md R27): an arithmetic instruction leaves its wrapped result
and nothing more. This file holds those results and the one comparison (spec/42_arithmetic.md R132). -/

namespace Sys2Proof.Machine

/-- R130: the sum modulo 2^32; a carry out of bit 31 is recorded nowhere. -/
def addResult (a b : Word) : Word :=
  BitVec.ofNat 32 (a.toNat + b.toNat)

/-- R131: one less, modulo 2^32; 0 gives 2^32 - 1, and the borrow is recorded nowhere. -/
def decResult (a : Word) : Word :=
  BitVec.ofInt 32 (a.toNat - 1)

/-- R140: whether two words are equal in all 32 bits. It leaves no trace. -/
def wordsEqual (a b : Word) : Bool :=
  decide (a = b)

end Sys2Proof.Machine
end

