-- ==== Sys2Proof/Machine/Arithmetic.lean ====
section
/-! DEFINITION. The meanings of `add` and `dec` (spec/42_arithmetic.md). -/

namespace Sys2Proof.Machine

/-- R130: `ACC <- (ACC + x[v1]) mod 2^32`. -/
def execAdd (v1 : RegIndex) (s : State) : Host.Outcome State Fault Refusal :=
  rangeChecked s [v1] ((s.writeAcc (addResult s.acc (s.readReg v1))).advance .add)

/-- R131: `x[v1] <- (x[v1] - 1) mod 2^32`. -/
def execDec (v1 : RegIndex) (s : State) : Host.Outcome State Fault Refusal :=
  rangeChecked s [v1] ((s.writeReg v1 (decResult (s.readReg v1))).advance .dec)

end Sys2Proof.Machine
end

