-- ==== Sys2Proof/Machine/Control.lean ====
section
/-! DEFINITION. The meaning of `bne` (spec/43_control.md). -/

namespace Sys2Proof.Machine

/-- R140: the branch is taken when the two registers are EQUAL (C1, D1; log entry 4). The target is the absolute
offset `imm`, checked for nothing (R142). -/
def execBne (v1 v2 : RegIndex) (imm : Word) (s : State) : Host.Outcome State Fault Refusal :=
  rangeChecked s [v1, v2]
    (if wordsEqual (s.readReg v1) (s.readReg v2) then s.jump imm else s.advance .bne)

end Sys2Proof.Machine
end

