-- ==== Sys2Proof/Machine/DataMovement.lean ====
section
/-! DEFINITION. The meanings of `mov`, `movi`, `ldai`, `lda` and `sta` (spec/41_data_movement.md). -/

namespace Sys2Proof.Machine

/-- R110: `x[v1] <- x[v2]`. -/
def execMov (v1 v2 : RegIndex) (s : State) : Host.Outcome State Fault Refusal :=
  rangeChecked s [v1, v2] ((s.writeReg v1 (s.readReg v2)).advance .mov)

/-- R111: `x[v1] <- imm`. -/
def execMovi (v1 : RegIndex) (imm : Word) (s : State) : Host.Outcome State Fault Refusal :=
  rangeChecked s [v1] ((s.writeReg v1 imm).advance .movi)

/-- R112: `ACC <- imm`; no register field, so no range check can fail. -/
def execLdai (imm : Word) (s : State) : Host.Outcome State Fault Refusal :=
  rangeChecked s [] ((s.writeAcc imm).advance .ldai)

/-- R113: `ACC <- x[v1]`. -/
def execLda (v1 : RegIndex) (s : State) : Host.Outcome State Fault Refusal :=
  rangeChecked s [v1] ((s.writeAcc (s.readReg v1)).advance .lda)

/-- R114: `x[v1] <- ACC`. -/
def execSta (v1 : RegIndex) (s : State) : Host.Outcome State Fault Refusal :=
  rangeChecked s [v1] ((s.writeReg v1 s.acc).advance .sta)

end Sys2Proof.Machine
end

