-- ==== Sys2Proof/Machine/Output.lean ====
section
/-! DEFINITION. The meaning of `print` and the sink's text of an output value (spec/44_output.md). -/

namespace Sys2Proof.Machine

/-- R150: `emit(ACC)`; no register field, so no range check can fail. -/
def execPrint (s : State) : Host.Outcome State Fault Refusal :=
  rangeChecked s [] ((s.emit s.acc).advance .print)

/-! ### The sink's rendering (R151): it reads OUT and is no part of CORE's state -/

/-- The decimal digits of `n`, most significant first, with no leading zero; `fuel` bounds their number and 10 is
enough for every 32-bit value. -/
def decimalDigits : Nat → Nat → List Nat
  | 0, _ => []
  | fuel + 1, n => if n < 10 then [n] else decimalDigits fuel (n / 10) ++ [n % 10]

/-- R151: the character of a digit. PRESUMED (log entry 8): ASCII, 0x30 to 0x39. -/
def digitByte (d : Nat) : Byte :=
  BitVec.ofNat 8 (0x30 + d)

/-- R151, D10: the line terminator. DESIGN CHOICE of the spec (log entry 8): one line feed. -/
def lineTerminator : Byte := 0x0A

/-- R151: the text of one output value, an unsigned decimal line. -/
def renderValue (v : Word) : List Byte :=
  (decimalDigits 10 v.toNat).map digitByte ++ [lineTerminator]

/-- R30, R152: the text of the whole output, in the order of the `print` steps. -/
def renderOut (s : State) : List Byte :=
  (s.out.map renderValue).flatten

end Sys2Proof.Machine
end

