-- ==== Sys2Proof/Machine/Dispatch.lean ====
section
/-! DEFINITION. The dispatcher (spec/40_sequencer.md R95): exactly one execute arm per instruction id. `exec` is
phases 3 and 4 of R90: the range check and the execute arm, for an instruction that has been decoded while RUN is
Running. -/

namespace Sys2Proof.Machine

/-- R95: the dispatch table. -/
def exec (i : Instr) (s : State) : Host.Outcome State Fault Refusal :=
  match i with
  | .mov v1 v2 => Sys2Proof.Machine.execMov v1 v2 s
  | .movi v1 imm => Sys2Proof.Machine.execMovi v1 imm s
  | .ldai imm => Sys2Proof.Machine.execLdai imm s
  | .lda v1 => Sys2Proof.Machine.execLda v1 s
  | .sta v1 => Sys2Proof.Machine.execSta v1 s
  | .add v1 => Sys2Proof.Machine.execAdd v1 s
  | .dec v1 => Sys2Proof.Machine.execDec v1 s
  | .bne v1 v2 imm => Sys2Proof.Machine.execBne v1 v2 imm s
  | .print => Sys2Proof.Machine.execPrint s

end Sys2Proof.Machine
end

