-- ==== Sys2Proof/Machine/Step.lean ====
section
/-! DEFINITION. One step of the sequencer (spec/40_sequencer.md R90), and the host's placing of an instruction where
the next step fetches. -/

namespace Sys2Proof.Machine

/-- R90: the phases in order, ending at the first that ends the step. From Halted or Faulted no step is defined
(R98); the `step` port ignores the request there (R100), so the state stays as it is. -/
def step (s : State) : Host.Outcome State Fault Refusal :=
  match s.run with
  | .halted => .next s
  | .faulted _ => .next s
  | .running =>
    if s.atEnd then .next s.halt
    else
      match s.decoded with
      | .unknownOpcode => .next (s.raiseFault .unknownOpcode)
      | .truncated => .next (s.raiseFault .decodeError)
      | .instr i => exec i s

/-- R181: the host supplies the bytes of an opcode-table word as the program's bytes from `PC` on, in a program
grown to hold them, and leaves the machine Running, so that the very next step runs that instruction. It stands for
the host's load of a program before a run (log entry 2); no instruction does it. -/
def State.withFetchWord (s : State) (nbits w : Nat) : State :=
  { s with
    run := .running
    prog := (s.prog.extendTo (s.pc.toNat + maxInstrLength)).supplyAll s.pc.toNat (tableBytes nbits w) }

end Sys2Proof.Machine
end

