-- ==== Sys2Proof/Machine/Ports.lean ====
section
/-! DEFINITION. The block's abstract interface (spec/40_sequencer.md R100): the status port and its encoding
(spec/10_state.md R28), the configuration ports, the program port, the output event of a step, the host's events
(spec/70_reset_and_hazards.md R185), and several machines side by side (spec/60_exceptions.md R169). -/

namespace Sys2Proof.Machine

/-- R28: the `run_state` field. -/
def RunState.code : RunState → BitVec 2
  | .running => 0
  | .halted => 1
  | .faulted _ => 2

/-- R28, R160: the code of a fault reason. -/
def Fault.code : Fault → BitVec 2
  | .unknownOpcode => 1
  | .decodeError => 2
  | .registerOutOfRange => 3

/-- R28: the `fault_reason` field; 0 unless `run_state` is 2. -/
def RunState.faultCode : RunState → BitVec 2
  | .running => 0
  | .halted => 0
  | .faulted reason => reason.code

/-- R100: the `run_state` port. -/
def State.runStatePort (s : State) : BitVec 2 :=
  s.run.code

/-- R100: the `fault_reason` port. -/
def State.faultReasonPort (s : State) : BitVec 2 :=
  s.run.faultCode

/-- R100: the `cfg_reg_count` port, 9 bits wide. -/
def State.cfgRegCountPort (s : State) : BitVec 9 :=
  BitVec.ofNat 9 s.regCount

/-- R100: the `prog_len` port. -/
def State.progLenPort (s : State) : Word :=
  s.prog.len

/-- R100: `prog_data` for an address on `prog_addr`, for addresses below `L` only. -/
def State.progDataPort (s : State) (addr : Word) : Option Byte :=
  s.prog.byteAt addr.toNat

/-- R100: the `out_valid` event of the step from this state, with its `out_data`; `none` when the step has none. -/
def State.outEvent (s : State) : Option Word :=
  match step s with
  | .next t => (t.out.drop s.out.length).head?
  | .fault _ => none
  | .refused _ => none

/-- R185: what the host may do to a machine between two steps. That it issues no event is how it stops a machine,
which then stays Running (R97). -/
inductive HostEvent where
  | reset
  | step
  deriving DecidableEq, Repr

/-- R100: the machine's answer to one event. -/
def onEvent (s : State) : HostEvent → Host.Outcome State Fault Refusal
  | .reset => .next s.applyReset
  | .step => Sys2Proof.Machine.step s

/-- R169: an event of machine `k` among several. The others are left as they are: nothing is shared. -/
def onEventAt (ms : List State) (k : Nat) (e : HostEvent) : List State :=
  match ms[k]? with
  | none => ms
  | some s =>
    match onEvent s e with
    | .next t => ms.set k t
    | .fault _ => ms
    | .refused _ => ms

end Sys2Proof.Machine
end

