-- ==== Sys2Proof/Safety.lean ====
section
/-! DEFINITION. What counts as a run, its end, its observation and a clean end (spec/70_reset_and_hazards.md R184,
spec/40_sequencer.md R98). -/

namespace Sys2Proof.Machine

/-- R183: progress is counted in steps; `t` is reached from `s` by some number of them. -/
inductive Reaches (s : State) : State → Prop where
  | start : Reaches s s
  | more {t u : State} : Reaches s t → step t = .next u → Reaches s u

/-- R183: `k` steps, one after the other. -/
def steps : Nat → State → Host.Outcome State Fault Refusal
  | 0, s => .next s
  | k + 1, s =>
    match step s with
    | .next t => steps k t
    | .fault reason => .fault reason
    | .refused reason => .refused reason

/-- R98, R184: a run has ended when RUN is not Running. -/
abbrev State.Ended (s : State) : Prop :=
  s.run ≠ .running

/-- R98, R184: the normal end. -/
abbrev State.CleanEnd (s : State) : Prop :=
  s.run = .halted

/-- R184: the observation of a run is the pair of OUT and the final RUN. -/
def State.observation (s : State) : List Word × RunState :=
  (s.out, s.run)

/-- R98: a safe run never reaches a Faulted state. -/
def NeverFaults (s : State) : Prop :=
  ∀ t, Reaches s t → ∀ reason, t.run ≠ .faulted reason

end Sys2Proof.Machine
end

