-- ==== Sys2Proof/Certificates/Slice0/Obligations.lean ====
section
/-! DEFINITION. The statements for the provers. `Obligations.<Name>` is one statement; the reference decoder above them
is the pseudocode of spec/30_encoding.md R70, written over single program bytes. -/

namespace Sys2Proof.Reference

open Sys2Proof.Machine

/-- R70: `decode(Prog, L, PC)` field by field; `none` where it is not defined, at `PC ≥ L`. The sum `PC + len` is an
exact integer. -/
def decodeAt (m : Memory) (pc : Nat) : Option Decoded :=
  match m.byteAt pc with
  | none => none
  | some b =>
    match Op.ofByte b with
    | none => some .unknownOpcode
    | some id =>
      if pc + id.length > m.len.toNat then some .truncated
      else
        match id with
        | .mov => (m.byteAt (pc + 1)).bind fun v1 => (m.byteAt (pc + 2)).map fun v2 => .instr (.mov v1 v2)
        | .movi => (m.byteAt (pc + 1)).bind fun v1 => (m.readWord (pc + 2)).map fun imm => .instr (.movi v1 imm)
        | .ldai => (m.readWord (pc + 1)).map fun imm => .instr (.ldai imm)
        | .lda => (m.byteAt (pc + 1)).map fun v1 => .instr (.lda v1)
        | .sta => (m.byteAt (pc + 1)).map fun v1 => .instr (.sta v1)
        | .add => (m.byteAt (pc + 1)).map fun v1 => .instr (.add v1)
        | .dec => (m.byteAt (pc + 1)).map fun v1 => .instr (.dec v1)
        | .bne => (m.byteAt (pc + 1)).bind fun v1 => (m.byteAt (pc + 2)).bind fun v2 =>
            (m.readWord (pc + 3)).map fun imm => .instr (.bne v1 v2 imm)
        | .print => some (.instr .print)

end Sys2Proof.Reference

open Sys2Proof Sys2Proof.Machine

/-! ### Encoding and decoding -/

/-- 30_encoding.md, the round-trip law `decode(encode(v)) == v` (S-1), whatever bytes follow in the program. -/
def Obligations.EncodeThenDecode : Prop :=
  ∀ (i : Instr) (rest : List Byte), decode (encode i ++ rest) = .instr i

/-- 30_encoding.md, the round-trip law `encode(decode(bytes)) == bytes` (S-1): the bytes decoded, and no more, are
the encoding of the instruction read. -/
def Obligations.DecodeThenEncode : Prop :=
  ∀ (bytes : List Byte) (i : Instr), decode bytes = .instr i →
    i.length ≤ bytes.length ∧ encode i = bytes.take i.length

/-- R67: the assignment is a bijection, and decoder and encoder consult the one table. -/
def Obligations.OpcodeAssignmentIsBijection : Prop :=
  (∀ o : Op, Op.ofByte o.byte = some o ∧ o.byte.toNat ≤ 8) ∧
  (∀ b : Byte, b.toNat ≤ 8 → ∃ o, Op.ofByte b = some o ∧ o.byte = b) ∧
  (∀ i : Instr, (encode i).head? = some i.op.byte) ∧
  (∀ (b : Byte) (rest : List Byte) (i : Instr), decode (b :: rest) = .instr i → Op.ofByte b = some i.op)

/-- R69: the length is a function of the opcode byte alone, known from byte 0, with the values of the table. -/
def Obligations.LengthIsFunctionOfOpcode : Prop :=
  ([Op.mov, .movi, .ldai, .lda, .sta, .add, .dec, .bne, .print].map Op.length) = [3, 6, 5, 2, 2, 2, 2, 7, 1] ∧
  (∀ i : Instr, (encode i).length = i.op.length) ∧
  (∀ i j : Instr, (encode i).head? = (encode j).head? → (encode i).length = (encode j).length) ∧
  (∀ (b : Byte) (rest rest' : List Byte) (i j : Instr),
    decode (b :: rest) = .instr i → decode (b :: rest') = .instr j → i.length = j.length)

/-- 30_encoding.md, the encoder from operand lists, which is the tool chain's and outside CORE: for every instruction
its own registers and its own immediate, where it has one, encode to its encoding; whatever is given comes out as as
many bytes as the id's length, which decode to an instruction of that id with those register fields and that
immediate; and a register operand above 255 is OperandRangeError (`none`). -/
def Obligations.EncoderOfOperandLists : Prop :=
  (∀ (v1 v2 : RegIndex) (imm : Word),
    encodeOperands .mov [v1.toNat, v2.toNat] none = some (encode (.mov v1 v2)) ∧
    encodeOperands .movi [v1.toNat] (some imm) = some (encode (.movi v1 imm)) ∧
    encodeOperands .ldai [] (some imm) = some (encode (.ldai imm)) ∧
    encodeOperands .lda [v1.toNat] none = some (encode (.lda v1)) ∧
    encodeOperands .sta [v1.toNat] none = some (encode (.sta v1)) ∧
    encodeOperands .add [v1.toNat] none = some (encode (.add v1)) ∧
    encodeOperands .dec [v1.toNat] none = some (encode (.dec v1)) ∧
    encodeOperands .bne [v1.toNat, v2.toNat] (some imm) = some (encode (.bne v1 v2 imm)) ∧
    encodeOperands .print [] none = some (encode .print)) ∧
  (∀ (o : Op) (regs : List Nat) (imm : Option Word) (bytes : List Byte), encodeOperands o regs imm = some bytes →
    bytes.length = o.length ∧
      ∃ i : Instr, decode bytes = .instr i ∧ i.op = o ∧ i.regFields.map BitVec.toNat = regs ∧ i.imm = imm ∧
        encode i = bytes) ∧
  (∀ (o : Op) (regs : List Nat) (imm : Option Word), (∃ n ∈ regs, 255 < n) → encodeOperands o regs imm = none)

/-- R65: an immediate field at byte `k` from `PC` is `MemRead(PC+k, 4)`, for the three instructions that have one, and
its byte at the lowest address holds bits [7:0]. -/
def Obligations.ImmediateIsLittleEndian : Prop :=
  (∀ (m : Memory) (a : Nat) (b0 b1 b2 b3 : Byte), m.byteAt a = some b0 → m.byteAt (a + 1) = some b1 →
    m.byteAt (a + 2) = some b2 → m.byteAt (a + 3) = some b3 →
    ∃ w, m.readWord a = some w ∧ w = b3 ++ b2 ++ b1 ++ b0 ∧ w.extractLsb' 0 8 = b0 ∧ w.extractLsb' 24 8 = b3 ∧
      w.toNat = b0.toNat + 2 ^ 8 * b1.toNat + 2 ^ 16 * b2.toNat + 2 ^ 24 * b3.toNat) ∧
  (∀ (s : State) (v1 : RegIndex) (imm : Word), s.decoded = .instr (.movi v1 imm) →
    s.prog.readWord (s.pc.toNat + 2) = some imm) ∧
  (∀ (s : State) (imm : Word), s.decoded = .instr (.ldai imm) → s.prog.readWord (s.pc.toNat + 1) = some imm) ∧
  (∀ (s : State) (v1 v2 : RegIndex) (imm : Word), s.decoded = .instr (.bne v1 v2 imm) →
    s.prog.readWord (s.pc.toNat + 3) = some imm)

/-- R68: every opcode byte from 0x09 to 0xFF is illegal and faults, however few or many bytes follow; within a legal
instruction every register byte and every immediate is a legal encoding. -/
def Obligations.IllegalOpcodeFaults : Prop :=
  (∀ (s : State) (b : Byte), s.run = .running → s.prog.byteAt s.pc.toNat = some b → 0x09 ≤ b.toNat →
    ∃ t, step s = .next t ∧ t.run = .faulted .unknownOpcode) ∧
  (∀ i : Instr, decode (encode i) = .instr i)

/-- R71: an instruction with fewer than `len` bytes left fails to decode with DecodeError; the missing bytes are
neither read nor filled with zero, and no address at `L` or above is read. -/
def Obligations.TruncatedInstructionIsDecodeError : Prop :=
  (∀ (s : State) (o : Op), s.prog.byteAt s.pc.toNat = some o.byte →
    s.prog.len.toNat - s.pc.toNat < o.length →
    s.decoded = .truncated ∧ (s.run = .running → ∃ t, step s = .next t ∧ t.run = .faulted .decodeError)) ∧
  (∀ (m : Memory) (a : Nat), m.len.toNat ≤ a → m.byteAt a = none) ∧
  (∀ s : State, s.fetchBytes.length ≤ s.prog.len.toNat - s.pc.toNat)

/-- R70: the decoder's pseudocode, field by field, and the default next PC it gives. -/
def Obligations.DecoderFollowsPseudocode : Prop :=
  ∀ s : State, s.pc.toNat < s.prog.len.toNat →
    Reference.decodeAt s.prog s.pc.toNat = some s.decoded ∧
    ∀ i, s.decoded = .instr i → (s.nextPc i.op).toNat = s.pc.toNat + i.length

/-- 95_test_vectors.md: words of every family, written out from the encodings (opcode values: D2). -/
def Obligations.SpelledWordsDecode : Prop :=
  decode [0x00, 0x01, 0x02] = .instr (.mov 1 2) ∧
  decode [0x01, 0x05, 0x78, 0x56, 0x34, 0x12] = .instr (.movi 5 0x12345678) ∧
  decode [0x02, 0x00, 0x00, 0x00, 0x80] = .instr (.ldai 2147483648) ∧
  decode [0x05, 0x00] = .instr (.add 0) ∧
  decode [0x07, 0x00, 0x01, 0x23, 0x00, 0x00, 0x00] = .instr (.bne 0 1 35) ∧
  decode [0x08] = .instr .print ∧
  decode [0x09] = .unknownOpcode ∧
  decode [0x01, 0x00, 0x03] = .truncated

/-! ### The step -/

/-- A step runs the decoded instruction: with RUN Running and `PC` inside the program, `step` is `exec` of what the
decoder reads at `PC`, and adds nothing around it. -/
def Obligations.StepRunsDecodedInstruction : Prop :=
  ∀ (s : State) (i : Instr), s.run = .running → s.pc.toNat < s.prog.len.toNat → s.decoded = .instr i →
    step s = exec i s

/-- The same from the program's bytes: an instruction whose encoding stands at `PC` runs. -/
def Obligations.EncodedInstructionAtPcRuns : Prop :=
  ∀ (s : State) (i : Instr), s.run = .running →
    (∀ k, k < i.length → s.prog.byteAt (s.pc.toNat + k) = (encode i)[k]?) → step s = exec i s

/-- An opcode-table word placed where the next step fetches is what that step runs (log entry 2). -/
def Obligations.PlacedTableWordRuns : Prop :=
  ∀ (s : State) (nbits w : Nat) (i : Instr), s.prog.wf = true →
    s.pc.toNat + maxInstrLength ≤ Config.maxProgramLength → decodeTableWord nbits w = some i →
    step (s.withFetchWord nbits w) = exec i (s.withFetchWord nbits w)

/-- 40_sequencer.md and 60_exceptions.md, the phases of a step in their order, the first that holds deciding. That the
range check comes before execution is the spec's decision D6, and that `PC = L` halts its D5. -/
def Obligations.StepPhasesInOrder : Prop :=
  ∀ s : State, s.run = .running →
    if s.prog.len.toNat ≤ s.pc.toNat then step s = .next { s with run := .halted }
    else ∃ b, s.prog.byteAt s.pc.toNat = some b ∧
      if 8 < b.toNat then step s = .next { s with run := .faulted .unknownOpcode }
      else ∃ o : Op, o.byte = b ∧
        if s.prog.len.toNat - s.pc.toNat < o.length then step s = .next { s with run := .faulted .decodeError }
        else ∃ i : Instr, i.op = o ∧ s.decoded = .instr i ∧
          if ∃ r ∈ i.regFields, s.regCount ≤ r.toNat then
            step s = .next { s with run := .faulted .registerOutOfRange }
          else ∃ t, step s = .next t ∧ exec i s = .next t ∧ t.run = .running

/-- 40_sequencer.md, end of program (spec decision D5): a step halts exactly when it starts with `PC ≥ L`, and then
nothing but RUN changes. -/
def Obligations.HaltsExactlyAtEndOfProgram : Prop :=
  ∀ s t : State, s.run = .running → step s = .next t →
    (t.run = .halted ↔ s.prog.len.toNat ≤ s.pc.toNat) ∧ (t.run = .halted → t = { s with run := .halted })

/-- 40_sequencer.md and 60_exceptions.md, faults are precise (spec decisions D6 and D7): the step that raises one
changes RUN and nothing else, so `PC` still holds the faulting instruction's address. -/
def Obligations.FaultsArePrecise : Prop :=
  ∀ (s t : State) (reason : Fault), s.run = .running → step s = .next t → t.run = .faulted reason →
    t = { s with run := .faulted reason }

/-- 60_exceptions.md, the cause of each of the three faults, the instructions that cannot raise one, and its code (the
codes are the spec's decision D8). -/
def Obligations.FaultCauses : Prop :=
  (∀ s t : State, s.run = .running → step s = .next t →
    (t.run = .faulted .unknownOpcode ↔ ∃ b, s.prog.byteAt s.pc.toNat = some b ∧ 8 < b.toNat) ∧
    (t.run = .faulted .decodeError ↔
      ∃ o : Op, s.prog.byteAt s.pc.toNat = some o.byte ∧ o ≠ .print ∧ s.prog.len.toNat - s.pc.toNat < o.length) ∧
    (t.run = .faulted .registerOutOfRange ↔
      ∃ i : Instr, s.pc.toNat < s.prog.len.toNat ∧ s.decoded = .instr i ∧ i.op ≠ .ldai ∧ i.op ≠ .print ∧
        ∃ r ∈ i.regFields, s.regCount ≤ r.toNat)) ∧
  (Fault.unknownOpcode.code = 1 ∧ Fault.decodeError.code = 2 ∧ Fault.registerOutOfRange.code = 3)

/-- R22: an index is valid when `i < REG_COUNT`; any field value decodes, and one that is not valid is refused at
execution; with 256 registers none is out of range. -/
def Obligations.InvalidIndexRefusedAtExecution : Prop :=
  (∀ i : Instr, decode (encode i) = .instr i) ∧
  (∀ (s : State) (i : Instr), s.run = .running → s.pc.toNat < s.prog.len.toNat → s.decoded = .instr i →
    (∃ r ∈ i.regFields, s.regCount ≤ r.toNat) → ∃ t, step s = .next t ∧ t.run = .faulted .registerOutOfRange) ∧
  (∀ (s : State) (i : Instr), s.regCount = 256 → i.WellFormed s.regCount)

/-- 40_sequencer.md, the range check (spec decision D6): the fields checked, read or written alike, and that a field
out of range leaves everything but RUN as it was. -/
def Obligations.OutOfRangeFieldChangesOnlyRun : Prop :=
  (∀ (s : State) (i : Instr), s.run = .running → (∃ r ∈ i.regFields, s.regCount ≤ r.toNat) →
    exec i s = .next { s with run := .faulted .registerOutOfRange }) ∧
  (∀ (v1 v2 : RegIndex) (imm : Word),
    (Instr.mov v1 v2).regFields = [v1, v2] ∧ (Instr.bne v1 v2 imm).regFields = [v1, v2] ∧
    (Instr.movi v1 imm).regFields = [v1] ∧ (Instr.lda v1).regFields = [v1] ∧ (Instr.sta v1).regFields = [v1] ∧
    (Instr.add v1).regFields = [v1] ∧ (Instr.dec v1).regFields = [v1] ∧
    (Instr.ldai imm).regFields = [] ∧ Instr.print.regFields = [])

/-- R95: the dispatcher's arms; an execute arm never faults: with its register fields in range every instruction
completes and RUN stays as it is. -/
def Obligations.ExecuteArmsNeverFault : Prop :=
  ∀ (s : State) (i : Instr), s.run = .running → i.WellFormed s.regCount →
    ∃ t, exec i s = .next t ∧ t.run = .running

/-- R93: `nextPc` is `PC` plus the instruction's length, one of the nine sums, and after a successful decode it is at
most `L`. -/
def Obligations.NextPcIsPastTheInstruction : Prop :=
  (∀ (s : State) (i : Instr), s.pc.toNat < s.prog.len.toNat → s.decoded = .instr i →
    (s.nextPc i.op).toNat = s.pc.toNat + i.length ∧ (s.nextPc i.op).toNat ≤ s.prog.len.toNat) ∧
  (∀ s : State, s.nextPc .mov = s.pc + 3 ∧ s.nextPc .movi = s.pc + 6 ∧ s.nextPc .ldai = s.pc + 5 ∧
    s.nextPc .lda = s.pc + 2 ∧ s.nextPc .sta = s.pc + 2 ∧ s.nextPc .add = s.pc + 2 ∧ s.nextPc .dec = s.pc + 2 ∧
    s.nextPc .bne = s.pc + 7 ∧ s.nextPc .print = s.pc + 1)

/-- R96: every execute arm ends by writing `PC`, a taken `bne` with its immediate and every other case with `nextPc`;
there is no other way to change `PC`. -/
def Obligations.PcSequencing : Prop :=
  (∀ (s t : State) (i : Instr), s.run = .running → s.pc.toNat < s.prog.len.toNat → s.decoded = .instr i →
    i.WellFormed s.regCount → step s = .next t →
    ((∃ v1 v2 imm, i = .bne v1 v2 imm ∧ s.readReg v1 = s.readReg v2 ∧ t.pc = imm) ∨
      ((∀ v1 v2 imm, i = .bne v1 v2 imm → s.readReg v1 ≠ s.readReg v2) ∧ t.pc = s.nextPc i.op))) ∧
  (∀ s t : State, step s = .next t → t.pc ≠ s.pc →
    s.run = .running ∧ s.pc.toNat < s.prog.len.toNat ∧ ∃ i, s.decoded = .instr i ∧ i.WellFormed s.regCount)

/-- R29: the run state starts Running, its only transitions are the three named, and neither terminal state resumes. -/
def Obligations.RunStateTransitions : Prop :=
  (∀ (n : Nat) (m : Memory), (State.created n m).run = .running) ∧
  (∀ s t : State, step s = .next t → s.run = .running →
    (t.run = .running ∧ s.pc.toNat < s.prog.len.toNat ∧
        ∃ i, s.decoded = .instr i ∧ i.WellFormed s.regCount ∧ exec i s = .next t) ∨
      (t.run = .halted ∧ s.prog.len.toNat ≤ s.pc.toNat) ∨
      (t.run = .faulted .unknownOpcode ∧ s.decoded = .unknownOpcode) ∨
      (t.run = .faulted .decodeError ∧ s.decoded = .truncated) ∨
      (t.run = .faulted .registerOutOfRange ∧ ∃ i, s.decoded = .instr i ∧ ¬ i.WellFormed s.regCount)) ∧
  (∀ s t : State, Reaches s t → s.run ≠ .running → t.run = s.run)

/-- 40_sequencer.md, terminal states (spec decision D7): a step request leaves a Halted or Faulted machine wholly as
it is, and so does any number of them. R98 defines no step there and R100 has the `step` port ignore the request; that
`step` answers the same state is the model's choice (log entry 6, DEDUCED). -/
def Obligations.TerminalStatesAreFrozen : Prop :=
  (∀ s t : State, s.Ended → Reaches s t → t = s) ∧
  (∀ (s : State) (k : Nat), s.Ended → steps k s = .next s)

/-- R163: no instruction or host action resumes a Faulted or Halted machine; a new run needs a reset. -/
def Obligations.OnlyResetLeavesTerminal : Prop :=
  (∀ (s t : State) (e : HostEvent), s.Ended → onEvent s e = .next t → t.run ≠ s.run → e = .reset) ∧
  (∀ s : State, ∃ t, onEvent s .reset = .next t ∧ t.run = .running)

/-- No step of this machine is refused or stops the model: each answers a next state, and one reset does too. This is
the model's choice (log entry 6, DEDUCED): a fault is the machine's own transition, so it is a next state, and where
40_sequencer.md R90 and R98 define no step, in a Halted or Faulted machine, `step` answers the same state, as R100 has the
`step` port ignore the request there. -/
def Obligations.EveryEventAnswersNextState : Prop :=
  ∀ (s : State) (e : HostEvent), ∃ t, onEvent s e = .next t

/-! ### One statement per instruction: the rule whole, as the step of a running machine

Each instruction's rule itself gives the opcode byte, the length and the faults these statements hold. The numbering of the
opcodes goes back to the spec's decision D2 (log entry 5), and the range check before any effect to its D6 (log
entry 10). -/

/-- R110: `mov v1, v2` is `[0x00, v1, v2]`; both fields are checked although `v1` is only written. -/
def Obligations.MovCopiesRegister : Prop :=
  ∀ s : State, s.run = .running → s.prog.byteAt s.pc.toNat = some 0x00 →
    if s.prog.len.toNat - s.pc.toNat < 3 then step s = .next { s with run := .faulted .decodeError }
    else ∃ v1 v2, s.prog.byteAt (s.pc.toNat + 1) = some v1 ∧ s.prog.byteAt (s.pc.toNat + 2) = some v2 ∧
      if v1.toNat < s.regCount ∧ v2.toNat < s.regCount then
        step s = .next { s with regs := s.regs.set v1.toNat (s.readReg v2), pc := s.pc + 3 } ∧
        (v1 = v2 → s.regs.set v1.toNat (s.readReg v2) = s.regs)
      else step s = .next { s with run := .faulted .registerOutOfRange }

/-- R111: `movi v1, imm` is `[0x01, v1, imm[7:0], imm[15:8], imm[23:16], imm[31:24]]`. -/
def Obligations.MoviLoadsRegister : Prop :=
  ∀ s : State, s.run = .running → s.prog.byteAt s.pc.toNat = some 0x01 →
    if s.prog.len.toNat - s.pc.toNat < 6 then step s = .next { s with run := .faulted .decodeError }
    else ∃ v1 imm, s.prog.byteAt (s.pc.toNat + 1) = some v1 ∧ s.prog.readWord (s.pc.toNat + 2) = some imm ∧
      if v1.toNat < s.regCount then
        step s = .next { s with regs := s.regs.set v1.toNat imm, pc := s.pc + 6 }
      else step s = .next { s with run := .faulted .registerOutOfRange }

/-- R112: `ldai imm` is `[0x02, imm[7:0], imm[15:8], imm[23:16], imm[31:24]]`; RegisterOutOfRange cannot occur. -/
def Obligations.LdaiLoadsAccumulator : Prop :=
  ∀ s : State, s.run = .running → s.prog.byteAt s.pc.toNat = some 0x02 →
    if s.prog.len.toNat - s.pc.toNat < 5 then step s = .next { s with run := .faulted .decodeError }
    else ∃ imm, s.prog.readWord (s.pc.toNat + 1) = some imm ∧
      step s = .next { s with acc := imm, pc := s.pc + 5 }

/-- R113: `lda v1` is `[0x03, v1]`; a register nothing has written reads 0. -/
def Obligations.LdaCopiesToAccumulator : Prop :=
  (∀ s : State, s.run = .running → s.prog.byteAt s.pc.toNat = some 0x03 →
    if s.prog.len.toNat - s.pc.toNat < 2 then step s = .next { s with run := .faulted .decodeError }
    else ∃ v1, s.prog.byteAt (s.pc.toNat + 1) = some v1 ∧
      if v1.toNat < s.regCount then step s = .next { s with acc := s.readReg v1, pc := s.pc + 2 }
      else step s = .next { s with run := .faulted .registerOutOfRange }) ∧
  (∀ (n : Nat) (m : Memory) (v1 : RegIndex), v1.toNat < n → (State.created n m).readReg v1 = 0)

/-- R114: `sta v1` is `[0x04, v1]`; it writes a register, never memory. -/
def Obligations.StaCopiesFromAccumulator : Prop :=
  ∀ s : State, s.run = .running → s.prog.byteAt s.pc.toNat = some 0x04 →
    if s.prog.len.toNat - s.pc.toNat < 2 then step s = .next { s with run := .faulted .decodeError }
    else ∃ v1, s.prog.byteAt (s.pc.toNat + 1) = some v1 ∧
      if v1.toNat < s.regCount then
        step s = .next { s with regs := s.regs.set v1.toNat s.acc, pc := s.pc + 2 }
      else step s = .next { s with run := .faulted .registerOutOfRange }

/-- R130: `add v1` is `[0x05, v1]`; the sum is modulo 2^32 and a carry is recorded nowhere. -/
def Obligations.AddWrapsIntoAccumulator : Prop :=
  ∀ s : State, s.run = .running → s.prog.byteAt s.pc.toNat = some 0x05 →
    if s.prog.len.toNat - s.pc.toNat < 2 then step s = .next { s with run := .faulted .decodeError }
    else ∃ v1, s.prog.byteAt (s.pc.toNat + 1) = some v1 ∧
      if v1.toNat < s.regCount then
        ∃ sum : Word, sum.toNat = (s.acc.toNat + (s.readReg v1).toNat) % 2 ^ 32 ∧
          step s = .next { s with acc := sum, pc := s.pc + 2 }
      else step s = .next { s with run := .faulted .registerOutOfRange }

/-- R131: `dec v1` is `[0x06, v1]`; 0 gives 4294967295, which is no fault, and `ACC` is unchanged. -/
def Obligations.DecWrapsRegister : Prop :=
  ∀ s : State, s.run = .running → s.prog.byteAt s.pc.toNat = some 0x06 →
    if s.prog.len.toNat - s.pc.toNat < 2 then step s = .next { s with run := .faulted .decodeError }
    else ∃ v1, s.prog.byteAt (s.pc.toNat + 1) = some v1 ∧
      if v1.toNat < s.regCount then
        ∃ less : Word, (less.toNat : Int) = ((s.readReg v1).toNat - 1 : Int) % 2 ^ 32 ∧
          step s = .next { s with regs := s.regs.set v1.toNat less, pc := s.pc + 2 }
      else step s = .next { s with run := .faulted .registerOutOfRange }

/-- 43_control.md, `bne v1, v2, imm`, `[0x07, v1, v2, imm…]`: taken when the registers are EQUAL, which is the spec's
decision D1 (C1; log entry 4). -/
def Obligations.BneBranchesOnEqual : Prop :=
  ∀ s : State, s.run = .running → s.prog.byteAt s.pc.toNat = some 0x07 →
    if s.prog.len.toNat - s.pc.toNat < 7 then step s = .next { s with run := .faulted .decodeError }
    else ∃ v1 v2 imm, s.prog.byteAt (s.pc.toNat + 1) = some v1 ∧ s.prog.byteAt (s.pc.toNat + 2) = some v2 ∧
      s.prog.readWord (s.pc.toNat + 3) = some imm ∧
      if v1.toNat < s.regCount ∧ v2.toNat < s.regCount then
        step s = .next { s with pc := if s.readReg v1 = s.readReg v2 then imm else s.pc + 7 } ∧
        (v1 = v2 → step s = .next { s with pc := imm })
      else step s = .next { s with run := .faulted .registerOutOfRange }

/-- R150: `print` is `[0x08]`; it appends `ACC` to `OUT`, with one event that carries it, and cannot fault. -/
def Obligations.PrintEmitsAccumulator : Prop :=
  ∀ s : State, s.run = .running → s.prog.byteAt s.pc.toNat = some 0x08 →
    step s = .next { s with out := s.out ++ [s.acc], pc := s.pc + 1 } ∧ s.outEvent = some s.acc

/-! ### Completion and result of every constructor, under hypotheses on the state and the operands alone -/

/-- `mov`, `movi`, `sta` and `dec` complete on a running machine whenever their register fields are in range. -/
def Obligations.RegisterWritersComplete : Prop :=
  ∀ (s : State) (v1 v2 : RegIndex) (imm : Word), s.run = .running → v1.toNat < s.regCount →
    (v2.toNat < s.regCount →
      exec (.mov v1 v2) s = .next { s with regs := s.regs.set v1.toNat (s.readReg v2), pc := s.pc + 3 }) ∧
    exec (.movi v1 imm) s = .next { s with regs := s.regs.set v1.toNat imm, pc := s.pc + 6 } ∧
    exec (.sta v1) s = .next { s with regs := s.regs.set v1.toNat s.acc, pc := s.pc + 2 } ∧
    exec (.dec v1) s = .next { s with regs := s.regs.set v1.toNat (s.readReg v1 - 1), pc := s.pc + 2 }

/-- `lda` and `add` complete on a running machine whenever their register field is in range, `ldai` always. -/
def Obligations.AccumulatorWritersComplete : Prop :=
  ∀ (s : State) (v1 : RegIndex) (imm : Word), s.run = .running →
    exec (.ldai imm) s = .next { s with acc := imm, pc := s.pc + 5 } ∧
    (v1.toNat < s.regCount →
      exec (.lda v1) s = .next { s with acc := s.readReg v1, pc := s.pc + 2 } ∧
      exec (.add v1) s = .next { s with acc := s.acc + s.readReg v1, pc := s.pc + 2 })

/-- `bne` completes on a running machine whenever its register fields are in range, taken (on equality: spec decision
D1) or not, and `print` always. -/
def Obligations.BranchAndPrintComplete : Prop :=
  ∀ (s : State) (v1 v2 : RegIndex) (imm : Word), s.run = .running →
    (v1.toNat < s.regCount → v2.toNat < s.regCount →
      (s.readReg v1 = s.readReg v2 → exec (.bne v1 v2 imm) s = .next { s with pc := imm }) ∧
      (s.readReg v1 ≠ s.readReg v2 → exec (.bne v1 v2 imm) s = .next { s with pc := s.pc + 7 })) ∧
    exec .print s = .next { s with out := s.out ++ [s.acc], pc := s.pc + 1 }

/-! ### Frames -/

/-- What `mov`, `movi`, `sta` and `dec` leave unchanged, in every next state: every register but `v1`, the
accumulator, the output, every byte of the program, and RUN unless the range check fails. -/
def Obligations.RegisterWritersFrame : Prop :=
  ∀ (s t : State) (v1 v2 : RegIndex) (imm : Word),
    (exec (.mov v1 v2) s = .next t ∨ exec (.movi v1 imm) s = .next t ∨ exec (.sta v1) s = .next t ∨
      exec (.dec v1) s = .next t) →
    (∀ r : RegIndex, r ≠ v1 → t.readReg r = s.readReg r) ∧ t.regCount = s.regCount ∧ t.acc = s.acc ∧
    t.out = s.out ∧ t.prog.len = s.prog.len ∧ (∀ a, t.prog.byteAt a = s.prog.byteAt a) ∧
    (t.run = s.run ∨ t.run = .faulted .registerOutOfRange)

/-- What `ldai`, `lda` and `add` leave unchanged: every register, the output, every byte of the program, and RUN unless
the range check fails. -/
def Obligations.AccumulatorWritersFrame : Prop :=
  ∀ (s t : State) (v1 : RegIndex) (imm : Word),
    (exec (.ldai imm) s = .next t ∨ exec (.lda v1) s = .next t ∨ exec (.add v1) s = .next t) →
    (∀ r : RegIndex, t.readReg r = s.readReg r) ∧ t.regCount = s.regCount ∧ t.out = s.out ∧
    t.prog.len = s.prog.len ∧ (∀ a, t.prog.byteAt a = s.prog.byteAt a) ∧
    (t.run = s.run ∨ t.run = .faulted .registerOutOfRange)

/-- What `bne` and `print` leave unchanged: every register, the accumulator, every byte of the program, RUN unless the
range check fails, and for `bne` the output. -/
def Obligations.BranchAndPrintFrame : Prop :=
  ∀ (s t : State) (v1 v2 : RegIndex) (imm : Word),
    (exec (.bne v1 v2 imm) s = .next t → t.out = s.out) ∧
    (exec .print s = .next t → t.run = s.run) ∧
    (exec (.bne v1 v2 imm) s = .next t ∨ exec .print s = .next t →
      (∀ r : RegIndex, t.readReg r = s.readReg r) ∧ t.regCount = s.regCount ∧ t.acc = s.acc ∧
      t.prog.len = s.prog.len ∧ (∀ a, t.prog.byteAt a = s.prog.byteAt a) ∧
      (t.run = s.run ∨ t.run = .faulted .registerOutOfRange))

/-! ### Whole-machine rules -/

/-- R41: no instruction reads or writes memory as data: `exec` leaves the program alone, and what it does to all else
is the same whatever the program. -/
def Obligations.NoInstructionTouchesMemory : Prop :=
  ∀ (i : Instr) (s t : State), exec i s = .next t →
    t.prog = s.prog ∧ ∀ m : Memory, exec i { s with prog := m } = .next { t with prog := m }

/-- 10_state.md and 20_memory.md: the run's parameters, the program bytes, `L` and REG_COUNT, are the same in every
state a run reaches (that the host leaves them alone is the spec's decision D12). -/
def Obligations.RunParametersNeverChange : Prop :=
  ∀ s t : State, Reaches s t → t.prog = s.prog ∧ t.regCount = s.regCount

/-- The invariant of a machine the host may set up: 1 to 256 registers, and a program in canonical form; every step and
every reset keeps it. -/
def Obligations.EventsKeepConfigured : Prop :=
  ∀ (s t : State) (e : HostEvent), s.Configured → onEvent s e = .next t → t.Configured

/-- The reset state is configured. Its 256 registers and its empty program are the model's choice (log entries 1
and 2). -/
def Obligations.ResetIsConfigured : Prop :=
  State.reset.Configured ∧ State.reset.regCount = 256 ∧ State.reset.prog.len = 0

/-- 70_reset_and_hazards.md, boot: whatever register count and program the host may choose, the machine it boots is
configured, has that many registers and holds exactly the program's bytes (a program of at most 2^32 - 1 bytes is the spec's decision D4; the
canonical form is the model's, log entry 3). -/
def Obligations.BootHoldsTheProgram : Prop :=
  ∀ (n : Nat) (program : List Byte), 1 ≤ n → n ≤ 256 → program.length ≤ 2 ^ 32 - 1 →
    (State.boot n program).Configured ∧ (State.boot n program).regCount = n ∧
    (State.boot n program).prog.len.toNat = program.length ∧
    ∀ a, (State.boot n program).prog.byteAt a = program[a]?

/-- Two canonical program memories with the same bytes are the same data (the model's canonical form, log entry 3). -/
def Obligations.CanonicalMemoriesAreEqual : Prop :=
  ∀ m n : Memory, m.wf = true → n.wf = true → (∀ a, m.byteAt a = n.byteAt a) → m = n

/-- 10_state.md and 70_reset_and_hazards.md, reset: from any state, for the run's parameters, every register and `ACC`
are 0, `PC` is 0, RUN is Running with reason code 0, and the new `OUT` is empty (spec decisions D8 and D15). -/
def Obligations.ResetValues : Prop :=
  ∀ s : State, ∃ t, onEvent s .reset = .next t ∧
    t.regCount = s.regCount ∧ (∀ k, k < t.regCount → t.regs[k]? = some 0) ∧ t.acc = 0 ∧ t.pc = 0 ∧
    t.run = .running ∧ t.faultReasonPort = 0 ∧ t.runStatePort = 0 ∧ t.out = [] ∧ t.prog = s.prog

/-- R23: the accumulator is outside the file, no register index names it, and it is read and written only through the
access mode the instruction declares. -/
def Obligations.AccumulatorOnlyByAccessMode : Prop :=
  (∀ (s : State) (r : RegIndex) (v a : Word),
    (s.writeReg r v).acc = s.acc ∧ { s with acc := a }.readReg r = s.readReg r) ∧
  (∀ (i : Instr) (s t : State), exec i s = .next t → (accMode i.op).writes = false → t.acc = s.acc) ∧
  (∀ (i : Instr) (s t : State) (a : Word), exec i s = .next t → (accMode i.op).reads = false →
    exec i { s with acc := a } =
      .next { t with acc := if (accMode i.op).writes ∧ i.WellFormed s.regCount then t.acc else a })

/-- 10_state.md, operand directions (the spec's own derivation): a register that is no written operand keeps its value,
and a register that is no read operand has no influence on anything else. -/
def Obligations.OperandDirections : Prop :=
  (∀ (i : Instr) (s t : State) (r : RegIndex), exec i s = .next t → writesReg i r = false →
    t.readReg r = s.readReg r) ∧
  (∀ (i : Instr) (s t : State) (r : RegIndex) (v : Word), i.WellFormed s.regCount → exec i s = .next t →
    readsReg i r = false →
    exec i (s.writeReg r v) = .next (if writesReg i r then t else t.writeReg r v)) ∧
  (∀ (v1 v2 : RegIndex) (imm : Word),
    regOperands (.mov v1 v2) = [(.output, v1), (.input, v2)] ∧ regOperands (.movi v1 imm) = [(.output, v1)] ∧
    regOperands (.ldai imm) = [] ∧ regOperands (.lda v1) = [(.input, v1)] ∧ regOperands (.sta v1) = [(.output, v1)] ∧
    regOperands (.add v1) = [(.input, v1)] ∧ regOperands (.dec v1) = [(.inout, v1)] ∧
    regOperands (.bne v1 v2 imm) = [(.input, v1), (.input, v2)] ∧ regOperands .print = [])

/-- 10_state.md, the output sequence (kept as values by the spec's decision D10): it starts empty; `print` appends one
element and nothing else writes it; the sink's text grows by that value's line. -/
def Obligations.OutputOnlyByPrint : Prop :=
  (∀ (n : Nat) (m : Memory), (State.created n m).out = []) ∧
  (∀ s t : State, step s = .next t →
    ((s.run = .running ∧ s.pc.toNat < s.prog.len.toNat ∧ s.decoded = .instr .print) ∧
        t.out = s.out ++ [s.acc] ∧ s.outEvent = some s.acc ∧ renderOut t = renderOut s ++ renderValue s.acc) ∨
      (¬ (s.run = .running ∧ s.pc.toNat < s.prog.len.toNat ∧ s.decoded = .instr .print) ∧
        t.out = s.out ∧ s.outEvent = none))

/-- 44_output.md and 20_memory.md: what has been printed stays, in order, in every state a run reaches, whether it goes
on, halts or faults. -/
def Obligations.OutputOnlyGrows : Prop :=
  ∀ s t : State, Reaches s t → s.out <+: t.out

/-- 44_output.md, the text of a value: 1 to 10 decimal digits of the value with no leading zero, and the terminator.
That the terminator is one line feed is the spec's decision D10; the ASCII digits are supplied from general knowledge
(log entry 8). -/
def Obligations.RenderingIsUnsignedDecimal : Prop :=
  ∀ v : Word, ∃ ds : List Nat,
    renderValue v = ds.map (fun d => BitVec.ofNat 8 (0x30 + d)) ++ [0x0A] ∧
    1 ≤ ds.length ∧ ds.length ≤ 10 ∧ (∀ d ∈ ds, d < 10) ∧ (ds.head? = some 0 → ds = [0]) ∧
    ds.foldl (fun n d => 10 * n + d) 0 = v.toNat

/-- 10_state.md, the status port (its encoding is the spec's decision D8): `run_state` is 0, 1 or 2 and never 3, and
`fault_reason` is 0 unless `run_state` is 2, and then 1, 2 or 3 by the reason. -/
def Obligations.StatusPortEncoding : Prop :=
  ∀ s : State,
    (s.runStatePort = 0 ↔ s.run = .running) ∧ (s.runStatePort = 1 ↔ s.run = .halted) ∧
    (s.runStatePort = 2 ↔ ∃ reason, s.run = .faulted reason) ∧ s.runStatePort ≠ 3 ∧
    (s.runStatePort ≠ 2 → s.faultReasonPort = 0) ∧
    (s.faultReasonPort = 1 ↔ s.run = .faulted .unknownOpcode) ∧
    (s.faultReasonPort = 2 ↔ s.run = .faulted .decodeError) ∧
    (s.faultReasonPort = 3 ↔ s.run = .faulted .registerOutOfRange)

/-- R162: what is no fault. An `add` that overflows, a `dec` below zero and a `bne` either way and wherever it goes
leave RUN Running; the end of the program halts; a register nothing has written reads 0. -/
def Obligations.OrdinaryOutcomesAreNoFaults : Prop :=
  (∀ (s : State) (v1 v2 : RegIndex) (imm : Word), s.run = .running → s.pc.toNat < s.prog.len.toNat →
    v1.toNat < s.regCount → v2.toNat < s.regCount →
    (s.decoded = .instr (.add v1) ∨ s.decoded = .instr (.dec v1) ∨ s.decoded = .instr (.bne v1 v2 imm)) →
    ∃ t, step s = .next t ∧ t.run = .running) ∧
  (∀ s : State, s.run = .running → s.prog.len.toNat ≤ s.pc.toNat → ∃ t, step s = .next t ∧ t.run = .halted) ∧
  (∀ (n : Nat) (m : Memory) (r : RegIndex), r.toNat < n → (State.created n m).readReg r = 0)

/-- 43_control.md, branch targets (spec decision D14): a taken `bne` succeeds at any target, and the NEXT step treats
the new `PC` like any other: past the end it halts, at an illegal opcode byte it faults, at any encoded instruction it
runs it. -/
def Obligations.TakenBranchTargets : Prop :=
  ∀ (s : State) (v1 v2 : RegIndex) (imm : Word), s.run = .running → s.pc.toNat < s.prog.len.toNat →
    s.decoded = .instr (.bne v1 v2 imm) → v1.toNat < s.regCount → v2.toNat < s.regCount →
    s.readReg v1 = s.readReg v2 →
    ∃ t, step s = .next t ∧ t = { s with pc := imm } ∧
      (s.prog.len.toNat ≤ imm.toNat → step t = .next { t with run := .halted }) ∧
      (∀ b, s.prog.byteAt imm.toNat = some b → 8 < b.toNat →
        step t = .next { t with run := .faulted .unknownOpcode }) ∧
      (∀ o : Op, s.prog.byteAt imm.toNat = some o.byte → s.prog.len.toNat - imm.toNat < o.length →
        step t = .next { t with run := .faulted .decodeError }) ∧
      (∀ i : Instr, (∀ k, k < i.length → s.prog.byteAt (imm.toNat + k) = (encode i)[k]?) → step t = exec i t)

/-- 40_sequencer.md, a run need not end (the spec's own derivation): a `bne` of a register with itself whose target is
its own address leaves the machine as it is for any number of steps, Running. -/
def Obligations.SelfBranchNeverEnds : Prop :=
  ∀ (s : State) (v : RegIndex) (k : Nat), s.run = .running → s.pc.toNat < s.prog.len.toNat →
    v.toNat < s.regCount → s.decoded = .instr (.bne v v s.pc) → steps k s = .next s

/-- 40_sequencer.md and 60_exceptions.md, what a clean run is: a machine never faults exactly when every Running state it
reaches inside the program decodes to an instruction with its register fields in range, and then a run that ends has
ended normally. (The order of the checks is the spec's decision D6.) -/
def Obligations.NeverFaultsExactlyWhenAllExecutes : Prop :=
  ∀ s : State, s.run = .running →
    (NeverFaults s ↔ ∀ t, Reaches s t → t.run = .running → t.pc.toNat < t.prog.len.toNat →
      ∃ i, t.decoded = .instr i ∧ i.WellFormed t.regCount) ∧
    (NeverFaults s → ∀ t, Reaches s t → t.Ended → t.CleanEnd)

/-- 70_reset_and_hazards.md, the end of a run: a run has one observation, the pair of OUT and the final RUN, however
many steps are asked for after it has ended (that the state is then frozen is the spec's decision D7). -/
def Obligations.RunHasOneObservation : Prop :=
  ∀ s t u : State, Reaches s t → Reaches s u → t.Ended → u.Ended → t.observation = u.observation

/-- 60_exceptions.md, several machines: an event of one leaves every other as it is, and what it does to its own
machine does not depend on the others. -/
def Obligations.MachinesAreIsolated : Prop :=
  (∀ (ms : List State) (j k : Nat) (e : HostEvent), j ≠ k → (onEventAt ms k e)[j]? = ms[j]?) ∧
  (∀ (ms : List State) (k : Nat) (e : HostEvent) (s : State), ms[k]? = some s →
    ∃ t, onEvent s e = .next t ∧ (onEventAt ms k e)[k]? = some t)
end

