-- ==== Sys2Proof/Laws/Decode.lean ====
section
/-! SUPPORT. The table, the decoder and the encoder: the length of each instruction, what an opcode byte selects, and
what the decoder answers for the bytes after it. -/

namespace Sys2Proof

@[simp] theorem Op.length_mov : Op.length .mov = 3 := rfl
@[simp] theorem Op.length_movi : Op.length .movi = 6 := rfl
@[simp] theorem Op.length_ldai : Op.length .ldai = 5 := rfl
@[simp] theorem Op.length_lda : Op.length .lda = 2 := rfl
@[simp] theorem Op.length_sta : Op.length .sta = 2 := rfl
@[simp] theorem Op.length_add : Op.length .add = 2 := rfl
@[simp] theorem Op.length_dec : Op.length .dec = 2 := rfl
@[simp] theorem Op.length_bne : Op.length .bne = 7 := rfl
@[simp] theorem Op.length_print : Op.length .print = 1 := rfl

/-- Every length is from 1 to that of the longest instruction. -/
theorem Op.length_bounds (o : Op) : 1 ≤ o.length ∧ o.length ≤ maxInstrLength := by
  cases o <;> decide

@[simp] theorem Op.ofByte_byte (o : Op) : Op.ofByte o.byte = some o := by
  cases o <;> rfl

/-- An opcode byte selects an id only if it is that id's byte. -/
theorem Op.byte_of_ofByte {b : Byte} {o : Op} (h : Op.ofByte b = some o) : b = o.byte := by
  unfold Op.ofByte at h
  split at h
  all_goals first
    | (cases h; exact BitVec.eq_of_toNat_eq (by assumption))
    | cases h

/-- A byte selects no id exactly when it is above 0x08. -/
theorem Op.ofByte_eq_none {b : Byte} : Op.ofByte b = none ↔ 8 < b.toNat := by
  constructor
  · intro h
    by_contra hn
    have : b.toNat ∈ List.range 9 := by simp; omega
    unfold Op.ofByte at h
    simp only [List.range, List.range.loop, List.mem_cons, List.not_mem_nil, or_false] at this
    rcases this with h' | h' | h' | h' | h' | h' | h' | h' | h' <;> simp [h'] at h
  · intro h
    cases ho : Op.ofByte b with
    | none => rfl
    | some o =>
      have := Op.byte_of_ofByte ho
      subst this
      cases o <;> simp [Op.byte] at h

/-- The fields of an instruction are read exactly when the bytes after the opcode are enough for its length. -/
theorem Op.readFields_isSome (o : Op) (rest : List Byte) :
    (o.readFields rest).isSome = true ↔ o.length ≤ rest.length + 1 := by
  rcases rest with _ | ⟨a, _ | ⟨b, _ | ⟨c, _ | ⟨d, _ | ⟨e, _ | ⟨f, rest⟩⟩⟩⟩⟩⟩ <;> cases o <;>
    simp [Op.readFields]

/-- The fields read are those of an instruction of that id. -/
theorem Op.readFields_op {o : Op} {rest : List Byte} {i : Instr} (h : o.readFields rest = some i) : i.op = o := by
  unfold Op.readFields at h
  split at h <;> cases h <;> rfl

/-- What the decoder answers when the first byte is an opcode. -/
theorem decode_op (o : Op) (rest : List Byte) :
    decode (o.byte :: rest) = match o.readFields rest with
      | none => .truncated
      | some i => .instr i := by
  cases h : o.readFields rest <;> simp [decode, h]

/-- Every instruction the decoder answers starts with its own opcode byte and is whole. -/
theorem decode_instr {bytes : List Byte} {i : Instr} (h : decode bytes = .instr i) :
    ∃ rest, bytes = i.op.byte :: rest ∧ i.op.readFields rest = some i := by
  cases bytes with
  | nil => cases h
  | cons b rest =>
    cases ho : Op.ofByte b with
    | none => simp [decode, ho] at h
    | some o =>
      cases hj : o.readFields rest with
      | none => simp [decode, ho, hj] at h
      | some j =>
        simp only [decode, ho, hj, Decoded.instr.injEq] at h
        subst h
        have hop := Op.readFields_op hj
        exact ⟨rest, by rw [Op.byte_of_ofByte ho, hop], by rw [hop]; exact hj⟩

/-- The bytes of an immediate assemble to it. -/
theorem immOfBytes_immByte (imm : Word) :
    immOfBytes (immByte imm 0) (immByte imm 1) (immByte imm 2) (immByte imm 3) = imm := by
  apply BitVec.eq_of_toNat_eq
  have h := imm.isLt
  simp only [immOfBytes, immByte, BitVec.toNat_append, BitVec.extractLsb'_toNat, Nat.shiftRight_eq_div_pow]
  rw [← Nat.shiftLeft_add_eq_or_of_lt (by omega), ← Nat.shiftLeft_add_eq_or_of_lt (by omega),
    ← Nat.shiftLeft_add_eq_or_of_lt (by omega)]
  simp only [Nat.shiftLeft_eq]
  omega

/-- The value of an immediate is the little-endian sum of its bytes (R8, R65). -/
theorem immOfBytes_toNat (b0 b1 b2 b3 : Byte) :
    (immOfBytes b0 b1 b2 b3).toNat =
      b0.toNat + 2 ^ 8 * b1.toNat + 2 ^ 16 * b2.toNat + 2 ^ 24 * b3.toNat := by
  have h0 := b0.isLt; have h1 := b1.isLt; have h2 := b2.isLt
  simp only [immOfBytes, BitVec.toNat_append]
  rw [← Nat.shiftLeft_add_eq_or_of_lt (by omega), ← Nat.shiftLeft_add_eq_or_of_lt (by omega),
    ← Nat.shiftLeft_add_eq_or_of_lt (by omega)]
  simp only [Nat.shiftLeft_eq]
  omega

end Sys2Proof
end

