-- ==== Sys2Proof/Laws/Memory.lean ====
section
/-! SUPPORT. The program memory: every operation on it keeps the canonical form, a supplied byte is read back and
leaves every other byte, and what a window of the program holds. -/

namespace Sys2Proof.Machine

/-! ### The cells -/

/-- A lower bound of canonical cells may be lowered. -/
theorem Memory.cellsWf_mono {lo lo' hi hi' : Nat} {cells : List Host.Cell} (h : lo' ≤ lo) (h' : hi ≤ hi')
    (hw : Memory.cellsWf lo hi cells = true) : Memory.cellsWf lo' hi' cells = true := by
  induction cells generalizing lo lo' with
  | nil => rfl
  | cons c rest ih =>
    obtain ⟨a, b⟩ := c
    simp only [Memory.cellsWf, Bool.and_eq_true, decide_eq_true_eq] at hw ⊢
    exact ⟨⟨⟨by omega, by omega⟩, hw.1.2⟩, ih (Nat.le_refl _) hw.2⟩

/-- Canonical cells list nothing below their lower bound. -/
theorem Memory.lookup_below {lo hi a : Nat} {cells : List Host.Cell} (hw : Memory.cellsWf lo hi cells = true)
    (ha : a < lo) : Memory.lookup cells a = Memory.unlisted := by
  induction cells generalizing lo with
  | nil => rfl
  | cons c rest ih =>
    obtain ⟨k, b⟩ := c
    simp only [Memory.cellsWf, Bool.and_eq_true, decide_eq_true_eq] at hw
    have : k ≠ a := by omega
    simpa [Memory.lookup, this] using ih hw.2 (by omega)

/-- Placing a byte keeps the cells canonical. -/
theorem Memory.place_wf {lo hi a : Nat} {b : Byte} {cells : List Host.Cell}
    (hw : Memory.cellsWf lo hi cells = true) (hlo : lo ≤ a) (hhi : a < hi) :
    Memory.cellsWf lo hi (Memory.place cells a b) = true := by
  induction cells generalizing lo with
  | nil =>
    by_cases hb : b = Memory.unlisted <;> simp [Memory.place, hb, Memory.cellsWf, hlo, hhi]
  | cons c rest ih =>
    obtain ⟨k, c⟩ := c
    have hw' := hw
    simp only [Memory.cellsWf, Bool.and_eq_true, decide_eq_true_eq] at hw'
    obtain ⟨⟨⟨h1, h2⟩, h3⟩, h4⟩ := hw'
    rcases Nat.lt_trichotomy a k with h | h | h
    · by_cases hb : b = Memory.unlisted
      · simpa [Memory.place, h, hb] using hw
      · simp [Memory.place, h, hb, Memory.cellsWf, hlo, hhi, h2, h3, h4, Nat.succ_le_of_lt h]
    · subst h
      by_cases hb : b = Memory.unlisted
      · simpa [Memory.place, hb] using Memory.cellsWf_mono (by omega) (Nat.le_refl _) h4
      · simp [Memory.place, hb, Memory.cellsWf, hlo, hhi, h4]
    · have hne : a ≠ k := by omega
      have hnl : ¬ a < k := by omega
      simp [Memory.place, hne, hnl, Memory.cellsWf, h1, h2, h3, ih h4 (by omega)]

/-- A placed byte is found; every other address gives what it gave. -/
theorem Memory.lookup_place {lo hi a : Nat} {b : Byte} {cells : List Host.Cell}
    (hw : Memory.cellsWf lo hi cells = true) (x : Nat) :
    Memory.lookup (Memory.place cells a b) x = if x = a then b else Memory.lookup cells x := by
  induction cells generalizing lo with
  | nil =>
    by_cases hx : x = a
    · by_cases hb : b = Memory.unlisted <;> simp [Memory.place, hb, Memory.lookup, hx]
    · have : a ≠ x := fun e => hx e.symm
      by_cases hb : b = Memory.unlisted <;> simp [Memory.place, hb, Memory.lookup, hx, this]
  | cons c rest ih =>
    obtain ⟨k, c⟩ := c
    simp only [Memory.cellsWf, Bool.and_eq_true, decide_eq_true_eq] at hw
    have below : ∀ y, y ≤ k → Memory.lookup rest y = Memory.unlisted := fun y hy =>
      Memory.lookup_below hw.2 (by omega)
    rcases Nat.lt_trichotomy a k with h | h | h
    · by_cases hb : b = Memory.unlisted
      · by_cases hx : x = a
        · subst hx
          have : k ≠ x := by omega
          simp [Memory.place, h, hb, Memory.lookup, this, below x (by omega)]
        · simp [Memory.place, h, hb, hx]
      · by_cases hx : x = a
        · simp [Memory.place, h, hb, Memory.lookup, hx]
        · have : a ≠ x := fun e => hx e.symm
          simp [Memory.place, h, hb, Memory.lookup, hx, this]
    · subst h
      by_cases hb : b = Memory.unlisted
      · by_cases hx : x = a
        · subst hx
          simp [Memory.place, hb, below x (Nat.le_refl _)]
        · have : a ≠ x := fun e => hx e.symm
          simp [Memory.place, hb, Memory.lookup, hx, this]
      · by_cases hx : x = a
        · simp [Memory.place, hb, Memory.lookup, hx]
        · have : a ≠ x := fun e => hx e.symm
          simp [Memory.place, hb, Memory.lookup, hx, this]
    · have hne : a ≠ k := by omega
      have hnl : ¬ a < k := by omega
      by_cases hk : k = x
      · have hx : k ≠ a := by omega
        subst hk
        simp [Memory.place, hne, hnl, Memory.lookup, hx]
      · simp [Memory.place, hne, hnl, Memory.lookup, hk, ih hw.2]

/-! ### Supplying a program -/

/-- Supplying a byte keeps the canonical form. -/
theorem Memory.supply_wf {m : Memory} (hw : m.wf = true) (a : Nat) (b : Byte) : (m.supply a b).wf = true := by
  unfold Memory.supply
  split
  · exact Memory.place_wf hw (Nat.zero_le _) ‹_›
  · exact hw

@[simp] theorem Memory.supply_len (m : Memory) (a : Nat) (b : Byte) : (m.supply a b).len = m.len := by
  unfold Memory.supply
  split <;> rfl

/-- A byte supplied inside the program is read back; every other byte is as it was. -/
theorem Memory.byteAt_supply {m : Memory} (hw : m.wf = true) {a : Nat} (ha : a < m.len.toNat) (b : Byte) (x : Nat) :
    (m.supply a b).byteAt x = if x = a then some b else m.byteAt x := by
  have hl : Memory.lookup (Memory.place m.cells a b) x = _ := Memory.lookup_place hw x
  by_cases hx : x = a
  · subst hx
    simp [Memory.supply, ha, Memory.byteAt, hl]
  · simp [Memory.supply, ha, Memory.byteAt, hl, hx]

@[simp] theorem Memory.supplyAll_len (m : Memory) (a : Nat) (bytes : List Byte) :
    (m.supplyAll a bytes).len = m.len := by
  induction bytes generalizing m a with
  | nil => rfl
  | cons b rest ih => simp [Memory.supplyAll, ih]

/-- Supplying bytes keeps the canonical form. -/
theorem Memory.supplyAll_wf {m : Memory} (hw : m.wf = true) (a : Nat) (bytes : List Byte) :
    (m.supplyAll a bytes).wf = true := by
  induction bytes generalizing m a with
  | nil => exact hw
  | cons b rest ih => exact ih (Memory.supply_wf hw a b) (a + 1)

/-- Growing the program keeps the canonical form. -/
theorem Memory.extendTo_wf {m : Memory} (hw : m.wf = true) (n : Nat) : (m.extendTo n).wf = true := by
  have hlt := m.len.isLt
  refine Memory.cellsWf_mono (Nat.le_refl _) ?_ hw
  simp only [Memory.extendTo, BitVec.toNat_ofNat, Config.maxProgramLength]
  omega

/-- Growing the program to `n` bytes, when D4 allows that many, leaves the greater of the two lengths. -/
theorem Memory.extendTo_len {m : Memory} {n : Nat} (hn : n ≤ Config.maxProgramLength) :
    (m.extendTo n).len.toNat = max m.len.toNat n := by
  have hlt := m.len.isLt
  simp only [Memory.extendTo, BitVec.toNat_ofNat, Config.maxProgramLength] at *
  omega

/-- A loaded program is in canonical form. -/
theorem Memory.ofBytes_wf (bytes : List Byte) : (Memory.ofBytes bytes).wf = true :=
  Memory.supplyAll_wf (Memory.extendTo_wf rfl _) 0 bytes

/-- The memory of the reset state is in canonical form. -/
theorem State.reset_prog_wf : State.reset.prog.wf = true := rfl

/-! ### Reading -/

/-- There is a byte exactly at the addresses below `L` (R45). -/
theorem Memory.byteAt_isSome (m : Memory) (a : Nat) : (m.byteAt a).isSome = true ↔ a < m.len.toNat := by
  simp [Memory.byteAt]

/-- A window holds the bytes of the program up to its end. -/
theorem Memory.window_length (m : Memory) (a n : Nat) : (m.window a n).length = min n (m.len.toNat - a) := by
  induction n generalizing a with
  | zero => simp [Memory.window]
  | succ n ih =>
    by_cases h : a < m.len.toNat
    · simp [Memory.window, Memory.byteAt, h, ih]
      omega
    · simp [Memory.window, Memory.byteAt, h]
      omega

/-- Each byte of a window is the program's byte at its address. -/
theorem Memory.window_getElem (m : Memory) (a n k : Nat) (hk : k < n) : (m.window a n)[k]? = m.byteAt (a + k) := by
  induction n generalizing a k with
  | zero => omega
  | succ n ih =>
    by_cases h : a < m.len.toNat
    · cases k with
      | zero => simp [Memory.window, Memory.byteAt, h]
      | succ k =>
        have := ih (a + 1) k (by omega)
        simp [Memory.window, Memory.byteAt, h, this, Nat.add_assoc, Nat.add_comm 1 k]
    · have h' : ¬ a + k < m.len.toNat := by omega
      simp [Memory.window, Memory.byteAt, h, h']

end Sys2Proof.Machine
end

