-- ==== Sys2Proof/Laws/State.lean ====
section
/-! SUPPORT. What each update of the state leaves in each field, and what reading a register gives after a write. -/

namespace Sys2Proof.Machine

variable (s : State) (r q : RegIndex) (v : Word) (o : Op) (f : Fault)

/-! ### Register write -/

@[simp] theorem State.writeReg_regs : (s.writeReg r v).regs = s.regs.set r.toNat v := rfl
@[simp] theorem State.writeReg_acc : (s.writeReg r v).acc = s.acc := rfl
@[simp] theorem State.writeReg_pc : (s.writeReg r v).pc = s.pc := rfl
@[simp] theorem State.writeReg_run : (s.writeReg r v).run = s.run := rfl
@[simp] theorem State.writeReg_out : (s.writeReg r v).out = s.out := rfl
@[simp] theorem State.writeReg_prog : (s.writeReg r v).prog = s.prog := rfl

/-! ### Accumulator write -/

@[simp] theorem State.writeAcc_regs : (s.writeAcc v).regs = s.regs := rfl
@[simp] theorem State.writeAcc_acc : (s.writeAcc v).acc = v := rfl
@[simp] theorem State.writeAcc_pc : (s.writeAcc v).pc = s.pc := rfl
@[simp] theorem State.writeAcc_run : (s.writeAcc v).run = s.run := rfl
@[simp] theorem State.writeAcc_out : (s.writeAcc v).out = s.out := rfl
@[simp] theorem State.writeAcc_prog : (s.writeAcc v).prog = s.prog := rfl

/-! ### PC writes -/

@[simp] theorem State.jump_regs : (s.jump v).regs = s.regs := rfl
@[simp] theorem State.jump_acc : (s.jump v).acc = s.acc := rfl
@[simp] theorem State.jump_pc : (s.jump v).pc = v := rfl
@[simp] theorem State.jump_run : (s.jump v).run = s.run := rfl
@[simp] theorem State.jump_out : (s.jump v).out = s.out := rfl
@[simp] theorem State.jump_prog : (s.jump v).prog = s.prog := rfl

@[simp] theorem State.advance_regs : (s.advance o).regs = s.regs := rfl
@[simp] theorem State.advance_acc : (s.advance o).acc = s.acc := rfl
@[simp] theorem State.advance_pc : (s.advance o).pc = s.nextPc o := rfl
@[simp] theorem State.advance_run : (s.advance o).run = s.run := rfl
@[simp] theorem State.advance_out : (s.advance o).out = s.out := rfl
@[simp] theorem State.advance_prog : (s.advance o).prog = s.prog := rfl

/-! ### Output -/

@[simp] theorem State.emit_regs : (s.emit v).regs = s.regs := rfl
@[simp] theorem State.emit_acc : (s.emit v).acc = s.acc := rfl
@[simp] theorem State.emit_pc : (s.emit v).pc = s.pc := rfl
@[simp] theorem State.emit_run : (s.emit v).run = s.run := rfl
@[simp] theorem State.emit_out : (s.emit v).out = s.out ++ [v] := rfl
@[simp] theorem State.emit_prog : (s.emit v).prog = s.prog := rfl

/-! ### Halt and fault -/

@[simp] theorem State.halt_regs : s.halt.regs = s.regs := rfl
@[simp] theorem State.halt_acc : s.halt.acc = s.acc := rfl
@[simp] theorem State.halt_pc : s.halt.pc = s.pc := rfl
@[simp] theorem State.halt_run : s.halt.run = .halted := rfl
@[simp] theorem State.halt_out : s.halt.out = s.out := rfl
@[simp] theorem State.halt_prog : s.halt.prog = s.prog := rfl

@[simp] theorem State.raiseFault_regs : (s.raiseFault f).regs = s.regs := rfl
@[simp] theorem State.raiseFault_acc : (s.raiseFault f).acc = s.acc := rfl
@[simp] theorem State.raiseFault_pc : (s.raiseFault f).pc = s.pc := rfl
@[simp] theorem State.raiseFault_run : (s.raiseFault f).run = .faulted f := rfl
@[simp] theorem State.raiseFault_out : (s.raiseFault f).out = s.out := rfl
@[simp] theorem State.raiseFault_prog : (s.raiseFault f).prog = s.prog := rfl

/-! ### Creation -/

@[simp] theorem State.created_regs (n : Nat) (m : Memory) :
    (State.created n m).regs = List.replicate n 0 := rfl
@[simp] theorem State.created_acc (n : Nat) (m : Memory) : (State.created n m).acc = 0 := rfl
@[simp] theorem State.created_pc (n : Nat) (m : Memory) : (State.created n m).pc = 0 := rfl
@[simp] theorem State.created_run (n : Nat) (m : Memory) : (State.created n m).run = .running := rfl
@[simp] theorem State.created_out (n : Nat) (m : Memory) : (State.created n m).out = [] := rfl
@[simp] theorem State.created_prog (n : Nat) (m : Memory) : (State.created n m).prog = m := rfl

/-! ### The register count -/

@[simp] theorem State.writeReg_regCount : (s.writeReg r v).regCount = s.regCount := by
  simp [State.regCount]
@[simp] theorem State.writeAcc_regCount : (s.writeAcc v).regCount = s.regCount := rfl
@[simp] theorem State.jump_regCount : (s.jump v).regCount = s.regCount := rfl
@[simp] theorem State.advance_regCount : (s.advance o).regCount = s.regCount := rfl
@[simp] theorem State.emit_regCount : (s.emit v).regCount = s.regCount := rfl
@[simp] theorem State.halt_regCount : s.halt.regCount = s.regCount := rfl
@[simp] theorem State.raiseFault_regCount : (s.raiseFault f).regCount = s.regCount := rfl
@[simp] theorem State.created_regCount (n : Nat) (m : Memory) : (State.created n m).regCount = n := by
  simp [State.regCount]

/-! ### Reading a register -/

/-- Reading depends on the register file alone. -/
theorem State.readReg_congr {s t : State} (h : s.regs = t.regs) (r : RegIndex) :
    s.readReg r = t.readReg r := by
  simp [State.readReg, h]

@[simp] theorem State.writeAcc_readReg : (s.writeAcc v).readReg r = s.readReg r := rfl
@[simp] theorem State.jump_readReg (w : Word) : (s.jump w).readReg r = s.readReg r := rfl
@[simp] theorem State.advance_readReg : (s.advance o).readReg r = s.readReg r := rfl
@[simp] theorem State.emit_readReg : (s.emit v).readReg r = s.readReg r := rfl
@[simp] theorem State.halt_readReg : s.halt.readReg r = s.readReg r := rfl
@[simp] theorem State.raiseFault_readReg : (s.raiseFault f).readReg r = s.readReg r := rfl

/-- A write to a register the file has is read back. -/
theorem State.readReg_writeReg_same (h : r.toNat < s.regCount) : (s.writeReg r v).readReg r = v := by
  simp [State.readReg, State.regCount] at *
  simp [h]

/-- A write leaves every other register. -/
theorem State.readReg_writeReg_other (h : q ≠ r) : (s.writeReg r v).readReg q = s.readReg q := by
  have hne : r.toNat ≠ q.toNat := fun e => h (BitVec.eq_of_toNat_eq e.symm)
  simp [State.readReg, List.getElem?_set_ne hne]

/-- Writing to a register what it holds changes nothing. -/
theorem State.writeReg_readReg_self : s.writeReg r (s.readReg r) = s := by
  have : s.regs.set r.toNat (s.regs.getD r.toNat 0) = s.regs := by
    by_cases h : r.toNat < s.regs.length
    · simp [List.getElem?_eq_getElem h]
    · simp [List.set_eq_of_length_le (Nat.le_of_not_lt h)]
  simp only [State.writeReg, State.readReg, this]

end Sys2Proof.Machine
end

