-- ==== Sys2Proof/Laws/Operands.lean ====
section
/-! SUPPORT. The range check and the arithmetic results: everything each can answer. -/

namespace Sys2Proof.Machine

/-- R22: the file has a register exactly when its index is below REG_COUNT. -/
theorem State.hasReg_iff (s : State) (r : RegIndex) : s.hasReg r = true ↔ RegIndex.Valid s.regCount r := by
  simp [State.hasReg, State.regCount]

/-- The register fields are in range exactly when each is a valid index. -/
theorem State.fieldsInRange_iff (s : State) (fields : List RegIndex) :
    s.fieldsInRange fields = true ↔ ∀ r ∈ fields, RegIndex.Valid s.regCount r := by
  simp [State.fieldsInRange, State.hasReg_iff]

/-- R94: with every field in range the check passes the execute arm's state on. -/
theorem rangeChecked_inRange {s : State} {fields : List RegIndex} (h : ∀ r ∈ fields, RegIndex.Valid s.regCount r)
    (after : State) : rangeChecked s fields after = .next after := by
  simp [rangeChecked, (s.fieldsInRange_iff fields).2 h]

/-- R94: with a field out of range nothing but RUN changes. -/
theorem rangeChecked_outOfRange {s : State} {fields : List RegIndex}
    (h : ¬ ∀ r ∈ fields, RegIndex.Valid s.regCount r) (after : State) :
    rangeChecked s fields after = .next (s.raiseFault .registerOutOfRange) := by
  have : ¬ s.fieldsInRange fields = true := fun e => h ((s.fieldsInRange_iff fields).1 e)
  simp [rangeChecked, this]

/-- All the range check can answer. -/
theorem rangeChecked_cases {s t : State} {fields : List RegIndex} {after : State}
    (h : rangeChecked s fields after = .next t) :
    ((∀ r ∈ fields, RegIndex.Valid s.regCount r) ∧ t = after) ∨
      ((¬ ∀ r ∈ fields, RegIndex.Valid s.regCount r) ∧ t = s.raiseFault .registerOutOfRange) := by
  by_cases hr : ∀ r ∈ fields, RegIndex.Valid s.regCount r
  · rw [rangeChecked_inRange hr] at h
    exact .inl ⟨hr, by cases h; rfl⟩
  · rw [rangeChecked_outOfRange hr] at h
    exact .inr ⟨hr, by cases h; rfl⟩

/-- R130: the sum is the word sum. -/
theorem addResult_eq (a b : Word) : addResult a b = a + b := by
  apply BitVec.eq_of_toNat_eq
  simp [addResult]

/-- R131: the result is the word less one. -/
theorem decResult_eq (a : Word) : decResult a = a - 1 := by
  apply BitVec.eq_of_toInt_eq
  have := a.toInt_eq_toNat_bmod
  simp [decResult, BitVec.toInt_sub, this]

/-- R140: the comparison is equality of the words. -/
theorem wordsEqual_iff (a b : Word) : wordsEqual a b = true ↔ a = b := by
  simp [wordsEqual]

end Sys2Proof.Machine
end

