-- ==== Sys2Proof/Laws/PerInstr.lean ====
section
/-! SUPPORT. One family of statements about every instruction as a term: its encoding begins with the opcode byte of
its id and is exactly as long as the id's length (spec/30_encoding.md R61, R69). -/

namespace Sys2Proof.Laws.EncodedShape

/-- The encoding begins with the opcode byte and its length is that of the id. -/
def Statement (i : Instr) : Prop :=
  (encode i).head? = some i.op.byte ∧ (encode i).length = i.length

theorem mov (v1 v2 : RegIndex) : Statement (.mov v1 v2) := ⟨rfl, rfl⟩
theorem movi (v1 : RegIndex) (imm : Word) : Statement (.movi v1 imm) := ⟨rfl, rfl⟩
theorem ldai (imm : Word) : Statement (.ldai imm) := ⟨rfl, rfl⟩
theorem lda (v1 : RegIndex) : Statement (.lda v1) := ⟨rfl, rfl⟩
theorem sta (v1 : RegIndex) : Statement (.sta v1) := ⟨rfl, rfl⟩
theorem add (v1 : RegIndex) : Statement (.add v1) := ⟨rfl, rfl⟩
theorem dec (v1 : RegIndex) : Statement (.dec v1) := ⟨rfl, rfl⟩
theorem bne (v1 v2 : RegIndex) (imm : Word) : Statement (.bne v1 v2 imm) := ⟨rfl, rfl⟩
theorem print : Statement .print := ⟨rfl, rfl⟩

end Sys2Proof.Laws.EncodedShape
end

