-- ==== Sys2Proof/Laws/Step.lean ====
section
/-! SUPPORT. Everything `exec` and `step` can do, said once: the state each execute arm leaves, the inversion lemma of
`exec`, and the phases of `step`. -/

namespace Sys2Proof.Machine

/-- The state the execute arm of an instruction leaves when its register fields are in range. -/
def armResult (i : Instr) (s : State) : State :=
  match i with
  | .mov v1 v2 => (s.writeReg v1 (s.readReg v2)).advance .mov
  | .movi v1 imm => (s.writeReg v1 imm).advance .movi
  | .ldai imm => (s.writeAcc imm).advance .ldai
  | .lda v1 => (s.writeAcc (s.readReg v1)).advance .lda
  | .sta v1 => (s.writeReg v1 s.acc).advance .sta
  | .add v1 => (s.writeAcc (addResult s.acc (s.readReg v1))).advance .add
  | .dec v1 => (s.writeReg v1 (decResult (s.readReg v1))).advance .dec
  | .bne v1 v2 imm => if wordsEqual (s.readReg v1) (s.readReg v2) then s.jump imm else s.advance .bne
  | .print => (s.emit s.acc).advance .print

/-- Every execute arm is the range check of the instruction's register fields and then its result. -/
theorem exec_eq (i : Instr) (s : State) : exec i s = rangeChecked s i.regFields (armResult i s) := by
  cases i <;> rfl

/-- An instruction with its fields in range leaves its arm's result. -/
theorem exec_wellFormed {i : Instr} {s : State} (h : i.WellFormed s.regCount) :
    exec i s = .next (armResult i s) := by
  rw [exec_eq, rangeChecked_inRange h]

/-- An instruction with a field out of range only faults. -/
theorem exec_not_wellFormed {i : Instr} {s : State} (h : ¬ i.WellFormed s.regCount) :
    exec i s = .next (s.raiseFault .registerOutOfRange) := by
  rw [exec_eq, rangeChecked_outOfRange h]

/-- All that `exec` can answer. -/
theorem exec_cases {i : Instr} {s t : State} (h : exec i s = .next t) :
    (i.WellFormed s.regCount ∧ t = armResult i s) ∨
      (¬ i.WellFormed s.regCount ∧ t = s.raiseFault .registerOutOfRange) :=
  rangeChecked_cases (exec_eq i s ▸ h)

/-! ### What every execute arm leaves -/

@[simp] theorem armResult_run (i : Instr) (s : State) : (armResult i s).run = s.run := by
  cases i <;> simp [armResult]
  split <;> rfl

@[simp] theorem armResult_prog (i : Instr) (s : State) : (armResult i s).prog = s.prog := by
  cases i <;> simp [armResult]
  split <;> rfl

@[simp] theorem armResult_regCount (i : Instr) (s : State) : (armResult i s).regCount = s.regCount := by
  cases i <;> simp [armResult]
  split <;> rfl

/-! ### The phases of a step -/

theorem State.atEnd_iff (s : State) : s.atEnd = true ↔ s.prog.len.toNat ≤ s.pc.toNat := by
  simp [State.atEnd]

/-- R91: the end of the program. -/
theorem step_atEnd {s : State} (hr : s.run = .running) (he : s.prog.len.toNat ≤ s.pc.toNat) :
    step s = .next s.halt := by
  simp [step, hr, (s.atEnd_iff).2 he]

/-- R90 phase 2: what the decoder's answer leads to. -/
theorem step_decoded {s : State} (hr : s.run = .running) (hp : s.pc.toNat < s.prog.len.toNat) :
    step s = match s.decoded with
      | .unknownOpcode => .next (s.raiseFault .unknownOpcode)
      | .truncated => .next (s.raiseFault .decodeError)
      | .instr i => exec i s := by
  have he : s.atEnd = false := by simp [State.atEnd]; omega
  simp only [step, hr, he]
  rfl

/-- All that a step can do. -/
theorem step_cases {s t : State} (h : step s = .next t) :
    (s.run ≠ .running ∧ t = s) ∨
    (s.run = .running ∧ s.prog.len.toNat ≤ s.pc.toNat ∧ t = s.halt) ∨
    (s.run = .running ∧ s.pc.toNat < s.prog.len.toNat ∧
      ((s.decoded = .unknownOpcode ∧ t = s.raiseFault .unknownOpcode) ∨
        (s.decoded = .truncated ∧ t = s.raiseFault .decodeError) ∨
        ∃ i, s.decoded = .instr i ∧
          ((i.WellFormed s.regCount ∧ t = armResult i s) ∨
            (¬ i.WellFormed s.regCount ∧ t = s.raiseFault .registerOutOfRange)))) := by
  cases hr : s.run with
  | halted => exact .inl ⟨by simp, by simp only [step, hr] at h; cases h; rfl⟩
  | faulted f => exact .inl ⟨by simp, by simp only [step, hr] at h; cases h; rfl⟩
  | running =>
    rcases Nat.lt_or_ge s.pc.toNat s.prog.len.toNat with hp | hp
    · rw [step_decoded hr hp] at h
      refine .inr (.inr ⟨rfl, hp, ?_⟩)
      cases hd : s.decoded with
      | unknownOpcode => rw [hd] at h; cases h; exact .inl ⟨rfl, rfl⟩
      | truncated => rw [hd] at h; cases h; exact .inr (.inl ⟨rfl, rfl⟩)
      | instr i => rw [hd] at h; exact .inr (.inr ⟨i, rfl, exec_cases h⟩)
    · rw [step_atEnd hr hp] at h
      cases h
      exact .inr (.inl ⟨rfl, hp, rfl⟩)

/-! ### Fetch -/

/-- With a legal opcode at `PC`, the fetched bytes are the program's from `PC` on, as many as the instruction has. -/
theorem State.fetchBytes_op {s : State} {o : Op} (h : s.prog.byteAt s.pc.toNat = some o.byte) :
    s.fetchBytes = s.prog.window s.pc.toNat o.length := by
  simp [State.fetchBytes, h]

/-- A legal opcode's fetched bytes begin with it. -/
theorem State.fetchBytes_cons {s : State} {o : Op} (h : s.prog.byteAt s.pc.toNat = some o.byte) :
    s.fetchBytes = o.byte :: s.prog.window (s.pc.toNat + 1) (o.length - 1) := by
  obtain ⟨n, hn⟩ : ∃ n, o.length = n + 1 := ⟨o.length - 1, by have := o.length_bounds.1; omega⟩
  simp [State.fetchBytes_op h, hn, Memory.window, h]

/-- An opcode byte above 0x08 at `PC`. -/
theorem State.decoded_unknown {s : State} {b : Byte} (h : s.prog.byteAt s.pc.toNat = some b) (hb : 8 < b.toNat) :
    s.decoded = .unknownOpcode := by
  have := Op.ofByte_eq_none.2 hb
  simp [State.decoded, State.fetchBytes, h, this, decode]

/-- A legal opcode at `PC`: the decoder reads the fields from the bytes that follow it in the program. -/
theorem State.decoded_op {s : State} {o : Op} (h : s.prog.byteAt s.pc.toNat = some o.byte) :
    s.decoded = match o.readFields (s.prog.window (s.pc.toNat + 1) (o.length - 1)) with
      | none => .truncated
      | some i => .instr i :=
  (congrArg decode (State.fetchBytes_cons h)).trans (decode_op o _)

end Sys2Proof.Machine
end

