-- ==== Sys2Proof/Tests/Slice0.lean ====
section
/-! SUPPORT. The model's own tests. Expected results are those of spec/95_test_vectors.md, whose numbers (V-…, S-…) the
docstrings give, or are worked by hand from the rule named. The last part shows, for each statement with hypotheses,
a state and operands that meet them. -/

namespace Sys2Proof.Tests

open Sys2Proof.Machine

/-- A running machine with these registers, accumulator, PC and program. -/
def machine (regs : List Word) (acc pc : Word) (program : List Byte) : State :=
  { State.boot regs.length program with regs := regs, acc := acc, pc := pc }

/-- The state after one step. -/
def after (s : State) : State :=
  match step s with
  | .next t => t
  | .fault _ => s
  | .refused _ => s

/-- What the statements about one instruction assume of a state: its run state, the byte at `PC`, and how many bytes
the program has from `PC` on. -/
def atPc (s : State) : RunState × Option Byte × Nat :=
  (s.run, s.prog.byteAt s.pc.toNat, s.prog.len.toNat - s.pc.toNat)

/-! ### Well-formedness: each register field is checked -/

/-- V-DM-3: the written field out of range; V-DM-4: the read field; and the greatest index that is valid. -/
theorem test_wellFormed_mov :
    ¬ (Instr.mov 8 0).WellFormed 8 ∧ ¬ (Instr.mov 0 8).WellFormed 8 ∧ (Instr.mov 7 7).WellFormed 8 := by decide

/-- Each other instruction with a register field, one field at REG_COUNT = 8. -/
theorem test_wellFormed_refuses :
    ¬ (Instr.movi 8 0).WellFormed 8 ∧ ¬ (Instr.lda 8).WellFormed 8 ∧ ¬ (Instr.sta 8).WellFormed 8 ∧
    ¬ (Instr.add 8).WellFormed 8 ∧ ¬ (Instr.dec 8).WellFormed 8 ∧ ¬ (Instr.bne 8 0 0).WellFormed 8 ∧
    ¬ (Instr.bne 0 8 0).WellFormed 8 := by decide

/-- No register field: well formed in any file; with 256 registers every index is (R22). -/
theorem test_wellFormed_accepts :
    (Instr.ldai 0).WellFormed 1 ∧ Instr.print.WellFormed 1 ∧ (Instr.lda 255).WellFormed 256 := by decide

/-! ### Decoding: a word of every instruction, written out from its encoding -/

/-- V-DM-1. -/
theorem test_decode_mov : decode [0x00, 0x01, 0x02] = .instr (.mov 1 2) := by decide
/-- V-DM-5. -/
theorem test_decode_movi : decode [0x01, 0x05, 0x78, 0x56, 0x34, 0x12] = .instr (.movi 5 0x12345678) := by decide
/-- V-DM-8. -/
theorem test_decode_ldai : decode [0x02, 0x78, 0x56, 0x34, 0x12] = .instr (.ldai 0x12345678) := by decide
/-- V-DM-14. -/
theorem test_decode_lda : decode [0x03, 0xFF] = .instr (.lda 255) := by decide
/-- V-DM-15. -/
theorem test_decode_sta : decode [0x04, 0x03] = .instr (.sta 3) := by decide
/-- V-AR-6. -/
theorem test_decode_add : decode [0x05, 0x09] = .instr (.add 9) := by decide
/-- V-AR-11. -/
theorem test_decode_dec : decode [0x06, 0x08] = .instr (.dec 8) := by decide
/-- V-CT-1. -/
theorem test_decode_bne : decode [0x07, 0x00, 0x01, 0x23, 0x00, 0x00, 0x00] = .instr (.bne 0 1 35) := by decide
/-- V-OU-1. -/
theorem test_decode_print : decode [0x08] = .instr .print := by decide
/-- V-DE-2, V-DE-3, V-CT-8, V-DM-16, V-DE-4. -/
theorem test_decode_errors :
    decode [0x09] = .unknownOpcode ∧ decode [0xFF, 0, 0, 0, 0, 0, 0] = .unknownOpcode ∧
    decode [0x07, 0x00, 0x01, 0x23, 0x00, 0x00] = .truncated ∧ decode [0x04] = .truncated ∧
    decode [0x07, 0xC8, 0x00] = .truncated := by decide

/-- R66, R63: opcode bytes, format tokens and lengths, row by row. -/
theorem test_table :
    ([Op.mov, .movi, .ldai, .lda, .sta, .add, .dec, .bne, .print].map fun o => (o.byte.toNat, o.formatToken, o.length)) =
      [(0, "opcode_v1_8_v2_8", 3), (1, "opcode_v1_8_imm_32", 6), (2, "opcode_imm_32", 5), (3, "opcode_v1_8", 2),
        (4, "opcode_v1_8", 2), (5, "opcode_v1_8", 2), (6, "opcode_v1_8", 2), (7, "opcode_v1_8_v2_8_imm_32", 7),
        (8, "opcode", 1)] := by decide

/-- R24: the accumulator-access modes, row by row. -/
theorem test_accModes :
    ([Op.mov, .movi, .ldai, .lda, .sta, .add, .dec, .bne, .print].map accMode) =
      [.none, .none, .output, .output, .input, .inout, .none, .none, .input] := by decide

/-- R111: `movi v0, 3` from an operand list; R73: a register operand above 255 has no encoding. -/
theorem test_encodeOperands :
    encodeOperands .movi [0] (some 3) = some [0x01, 0x00, 0x03, 0x00, 0x00, 0x00] ∧
    encodeOperands .mov [256, 0] none = none ∧ encodeOperands .lda [1] (some 3) = none := by decide

/-- The table numbers bit 0 as the least significant bit of the first byte; operand bytes it leaves out are zeros. -/
theorem test_decodeTableWord :
    decodeTableWord 24 0x020100 = some (.mov 1 2) ∧ decodeTableWord 8 0x07 = some (.bne 0 0 0) ∧
    decodeTableWord 8 0x09 = none := by decide

/-- A placed word is what the first step after reset runs: `movi v0, 3`. -/
theorem test_withFetchWord :
    (State.reset.withFetchWord 48 0x000000030001).decoded = .instr (.movi 0 3) ∧
    (after (State.reset.withFetchWord 48 0x000000030001)).pc = 6 := by decide

/-! ### Instructions: a result from the vectors, and each clause of the rule at its boundary

In each `_clauses` test the first state has one byte too few, the second exactly enough and the greatest valid index,
the third the index REG_COUNT. -/

/-- V-DM-1; the program and the other registers stay (R110). -/
theorem test_mov_copies :
    (after (machine [0, 0, 7, 0, 0, 0, 0, 0] 0 0 [0x00, 1, 2])).regs = [0, 7, 7, 0, 0, 0, 0, 0] ∧
    (after (machine [0, 0, 7, 0, 0, 0, 0, 0] 0 0 [0x00, 1, 2])).pc = 3 := by decide

/-- V-DM-4 for the third state. -/
theorem test_mov_clauses :
    atPc (machine [4, 5] 0 0 [0x00, 1]) = (.running, some 0x00, 2) ∧
    (after (machine [4, 5] 0 0 [0x00, 1])).run = .faulted .decodeError ∧
    atPc (machine [4, 5] 0 0 [0x00, 1, 0]) = (.running, some 0x00, 3) ∧
    (after (machine [4, 5] 0 0 [0x00, 1, 0])).regs = [4, 4] ∧
    (after (machine [4, 5] 0 0 [0x00, 0, 2])).run = .faulted .registerOutOfRange ∧
    (after (machine [4, 5] 0 0 [0x00, 0, 2])).regs = [4, 5] := by decide

/-- V-DM-6: no sign extension. -/
theorem test_movi_loads :
    (after (machine [3, 1] 0 0 [0x01, 0, 0xFF, 0xFF, 0xFF, 0xFF])).regs = [0xFFFFFFFF, 1] ∧
    (after (machine [3, 1] 0 0 [0x01, 0, 0xFF, 0xFF, 0xFF, 0xFF])).pc = 6 := by decide

/-- S-10 for the first state. -/
theorem test_movi_clauses :
    atPc (machine [0, 0] 0 0 [0x01, 0, 3, 0, 0]) = (.running, some 0x01, 5) ∧
    (after (machine [0, 0] 0 0 [0x01, 0, 3, 0, 0])).run = .faulted .decodeError ∧
    atPc (machine [0, 0] 0 0 [0x01, 1, 3, 0, 0, 0]) = (.running, some 0x01, 6) ∧
    (after (machine [0, 0] 0 0 [0x01, 1, 3, 0, 0, 0])).regs = [0, 3] ∧
    (after (machine [0, 0] 0 0 [0x01, 2, 3, 0, 0, 0])).run = .faulted .registerOutOfRange := by decide

/-- V-DM-9. -/
theorem test_ldai_loads :
    (after (machine [0] 1 0 [0x02, 0, 0, 0, 0x80])).acc = 2147483648 ∧
    (after (machine [0] 1 0 [0x02, 0, 0, 0, 0x80])).pc = 5 := by decide

/-- One byte too few, and exactly enough. -/
theorem test_ldai_clauses :
    atPc (machine [0] 1 0 [0x02, 0xFF, 0, 0]) = (.running, some 0x02, 4) ∧
    (after (machine [0] 1 0 [0x02, 0xFF, 0, 0])).run = .faulted .decodeError ∧
    (after (machine [0] 1 0 [0x02, 0xFF, 0, 0])).acc = 1 ∧
    atPc (machine [0] 1 0 [0x02, 0xFF, 0, 0, 0]) = (.running, some 0x02, 5) := by decide

/-- V-DM-11, in a file of five. -/
theorem test_lda_copies :
    (after (machine [0, 0, 0, 0, 0xFFFFFFFF] 0 0 [0x03, 4])).acc = 0xFFFFFFFF ∧
    (after (machine [0, 0, 0, 0, 0xFFFFFFFF] 0 0 [0x03, 4])).pc = 2 := by decide

/-- V-DM-13 for the third state: `ACC` unchanged. -/
theorem test_lda_clauses :
    atPc (machine [6, 7] 1 0 [0x03]) = (.running, some 0x03, 1) ∧
    (after (machine [6, 7] 1 0 [0x03])).run = .faulted .decodeError ∧
    atPc (machine [6, 7] 1 0 [0x03, 1]) = (.running, some 0x03, 2) ∧
    (after (machine [6, 7] 1 0 [0x03, 1])).acc = 7 ∧
    (after (machine [6, 7] 1 0 [0x03, 2])).run = .faulted .registerOutOfRange ∧
    (after (machine [6, 7] 1 0 [0x03, 2])).acc = 1 := by decide

/-- V-DM-15. -/
theorem test_sta_copies :
    (after (machine [0, 0, 0, 0] 5 0 [0x04, 3])).regs = [0, 0, 0, 5] ∧
    (after (machine [0, 0, 0, 0] 5 0 [0x04, 3])).acc = 5 := by decide

/-- V-DM-16 for the first state. -/
theorem test_sta_clauses :
    atPc (machine [0, 0] 5 0 [0x04]) = (.running, some 0x04, 1) ∧
    (after (machine [0, 0] 5 0 [0x04])).run = .faulted .decodeError ∧
    atPc (machine [0, 0] 5 0 [0x04, 1]) = (.running, some 0x04, 2) ∧
    (after (machine [0, 0] 5 0 [0x04, 1])).pc = 2 ∧
    (after (machine [0, 0] 5 0 [0x04, 2])).run = .faulted .registerOutOfRange := by decide

/-- V-AR-2, S-3: 4294967295 + 1 wraps to 0; V-AR-3. -/
theorem test_add_wraps :
    (after (machine [1] 0xFFFFFFFF 0 [0x05, 0])).acc = 0 ∧
    (after (machine [0xFFFFFFFF] 0xFFFFFFFF 0 [0x05, 0])).acc = 0xFFFFFFFE := by decide

/-- V-AR-6 for the third state. -/
theorem test_add_clauses :
    atPc (machine [1, 2] 7 0 [0x05]) = (.running, some 0x05, 1) ∧
    (after (machine [1, 2] 7 0 [0x05])).run = .faulted .decodeError ∧
    atPc (machine [1, 2] 7 0 [0x05, 1]) = (.running, some 0x05, 2) ∧
    (after (machine [1, 2] 7 0 [0x05, 1])).acc = 9 ∧
    (after (machine [1, 2] 7 0 [0x05, 2])).run = .faulted .registerOutOfRange := by decide

/-- V-AR-7, S-4: 0 wraps to 4294967295; V-AR-10: `ACC` unchanged. -/
theorem test_dec_wraps :
    (after (machine [0] 4 0 [0x06, 0])).regs = [0xFFFFFFFF] ∧ (after (machine [0] 4 0 [0x06, 0])).acc = 4 ∧
    (after (machine [0x80000000] 4 0 [0x06, 0])).regs = [0x7FFFFFFF] := by decide

/-- V-AR-11 for the third state. -/
theorem test_dec_clauses :
    atPc (machine [1, 2] 7 0 [0x06]) = (.running, some 0x06, 1) ∧
    (after (machine [1, 2] 7 0 [0x06])).run = .faulted .decodeError ∧
    atPc (machine [1, 2] 7 0 [0x06, 1]) = (.running, some 0x06, 2) ∧
    (after (machine [1, 2] 7 0 [0x06, 1])).regs = [1, 1] ∧
    (after (machine [1, 2] 7 0 [0x06, 2])).run = .faulted .registerOutOfRange := by decide

/-- S-5 and S-6, V-CT-6: taken on equality of all 32 bits, otherwise past the seven bytes. -/
theorem test_bne_polarity :
    (after (machine [5, 5] 0 0 [0x07, 0, 1, 0x0A, 0, 0, 0])).pc = 10 ∧
    (after (machine [5, 6] 0 0 [0x07, 0, 1, 0x0A, 0, 0, 0])).pc = 7 ∧
    (after (machine [0, 0x100] 0 0 [0x07, 0, 1, 0, 0, 0, 0])).pc = 7 := by decide

/-- V-CT-8 for the first state, V-CT-7 for the third. -/
theorem test_bne_clauses :
    atPc (machine [9, 9] 0 0 [0x07, 0, 1, 0x23, 0, 0]) = (.running, some 0x07, 6) ∧
    (after (machine [9, 9] 0 0 [0x07, 0, 1, 0x23, 0, 0])).run = .faulted .decodeError ∧
    atPc (machine [9, 9] 0 0 [0x07, 0, 1, 0x23, 0, 0, 0]) = (.running, some 0x07, 7) ∧
    (after (machine [9, 9] 0 0 [0x07, 0, 1, 0x23, 0, 0, 0])).pc = 35 ∧
    (after (machine [9, 9] 0 0 [0x07, 0, 2, 0x23, 0, 0, 0])).run = .faulted .registerOutOfRange := by decide

/-- V-OU-2, after an earlier value; one event (R100). -/
theorem test_print_emits :
    (after { machine [0] 0xFFFFFFFF 0 [0x08] with out := [3] }).out = [3, 4294967295] ∧
    (machine [0] 0xFFFFFFFF 0 [0x08]).outEvent = some 4294967295 := by decide

/-- V-DE-6: at the last byte of the program. -/
theorem test_print_last_byte :
    atPc (machine [0] 1 2 [0x09, 0x09, 0x08]) = (.running, some 0x08, 1) ∧
    (after (machine [0] 1 2 [0x09, 0x09, 0x08])).pc = 3 := by decide

/-- S-7, V-OU-3: "0", "4294967295" and "10", each with one line feed. -/
theorem test_render :
    renderValue 0 = [0x30, 0x0A] ∧ renderValue 10 = [0x31, 0x30, 0x0A] ∧
    renderValue 4294967295 = [0x34, 0x32, 0x39, 0x34, 0x39, 0x36, 0x37, 0x32, 0x39, 0x35, 0x0A] := by decide

/-! ### The step -/

/-- V-DE-1, V-DE-7: halting at `PC = L` (an empty program) and beyond it; P6a. -/
theorem test_halts :
    (after (machine [0] 0 0 [])).run = .halted ∧ (after (machine [0] 0 100 [0x08])).run = .halted ∧
    (after (machine [0] 0 100 [0x08])).pc = 100 := by decide

/-- R164: each order before the next. V-DE-2; V-DE-4; V-DE-5. -/
theorem test_priority :
    (after (machine [0, 0, 0, 0] 0 0 [0x09])).run = .faulted .unknownOpcode ∧
    (after (machine [0, 0, 0, 0] 0 0 [0x07, 0xC8, 0x00])).run = .faulted .decodeError ∧
    (after (machine [0, 0, 0, 0] 0 0 [0x00, 9, 9])).run = .faulted .registerOutOfRange := by decide

/-- R98, R100: a step request in a terminal state is ignored. -/
theorem test_terminal_ignored :
    after { machine [0] 0 0 [0x08] with run := .halted } = { machine [0] 0 0 [0x08] with run := .halted } := by decide

/-- R28: the status port after a fault, and at reset. -/
theorem test_status :
    (after (machine [0] 0 0 [0x09])).runStatePort = 2 ∧ (after (machine [0] 0 0 [0x09])).faultReasonPort = 1 ∧
    State.reset.runStatePort = 0 ∧ State.reset.progLenPort = 0 := by decide

/-- R180: a reset of a faulted machine keeps the program and the register count. -/
theorem test_applyReset :
    (after (machine [4, 5] 6 1 [0x08, 0x09])).applyReset = machine [0, 0] 0 0 [0x08, 0x09] := by decide

/-- The canonical form: the zero byte of a program is not listed, and is read. -/
theorem test_memory_canonical :
    (Memory.ofBytes [0x01, 0x00, 0x03]).cells = [(0, 0x01), (2, 0x03)] ∧
    (Memory.ofBytes [0x01, 0x00, 0x03]).byteAt 1 = some 0 ∧ (Memory.ofBytes [0x01, 0x00, 0x03]).byteAt 3 = none := by
  decide

/-- R169: an event of machine 0 leaves machine 1. -/
theorem test_machines :
    onEventAt [machine [1] 0 0 [0x06, 0], machine [2] 0 0 [0x06, 0]] 0 .step =
      [after (machine [1] 0 0 [0x06, 0]), machine [2] 0 0 [0x06, 0]] := by decide

/-! ### Witnesses: states and operands that meet the statements' hypotheses -/

/-- The hypotheses of DecodeThenEncode and of the third clause of LengthIsFunctionOfOpcode. -/
theorem test_witness_decode :
    decode [0x06, 0x01, 0xAA] = .instr (.dec 1) ∧ decode [0x06, 0x02] = .instr (.dec 2) := by decide

/-- OpcodeAssignmentIsBijection, at the greatest opcode; LengthIsFunctionOfOpcode, second clause. -/
theorem test_witness_opcode :
    ((0x08 : Byte).toNat ≤ 8) ∧ (encode (.mov 1 2)).head? = (encode (.mov 3 4)).head? := by decide

/-- EncoderOfOperandLists: operand lists that encode, one with an immediate, and one with a register operand of 256. -/
theorem test_witness_encoder :
    encodeOperands .mov [255, 0] none = some [0x00, 0xFF, 0x00] ∧
    encodeOperands .bne [255, 1] (some 0x04030201) = some [0x07, 0xFF, 1, 1, 2, 3, 4] ∧ (∃ n ∈ [0, 256], 255 < n) := by decide

/-- ImmediateIsLittleEndian: four bytes up to the end of the program, and the three instructions decoded. -/
theorem test_witness_immediate :
    (Memory.ofBytes [1, 2, 3, 4]).readWord 0 = some 0x04030201 ∧ (Memory.ofBytes [1, 2, 3, 4]).readWord 1 = none ∧
    (machine [0] 0 0 [0x01, 0, 1, 2, 3, 4]).decoded = .instr (.movi 0 0x04030201) ∧
    (machine [0] 0 0 [0x02, 1, 2, 3, 4]).decoded = .instr (.ldai 0x04030201) ∧
    (machine [0] 0 0 [0x07, 0, 0, 1, 2, 3, 4]).decoded = .instr (.bne 0 0 0x04030201) := by decide

/-- IllegalOpcodeFaults, at the least illegal byte; TruncatedInstructionIsDecodeError, one byte short; an address at
`L`. -/
theorem test_witness_decode_faults :
    atPc (machine [0] 0 0 [0x09]) = (.running, some 0x09, 1) ∧
    atPc (machine [0] 0 0 [0x02, 0xFF, 0, 0]) = (.running, some Op.ldai.byte, Op.ldai.length - 1) ∧
    (Memory.ofBytes [1]).len.toNat ≤ 1 := by decide

/-- DecoderFollowsPseudocode, StepRunsDecodedInstruction, NextPcIsPastTheInstruction and ExecuteArmsNeverFault; and
PcSequencing: a branch taken, one not taken, another instruction; and a PC that changes. -/
theorem test_witness_step :
    (machine [5, 5] 0 0 [0x07, 0, 1, 0x0A, 0, 0, 0]).run = .running ∧
    (machine [5, 5] 0 0 [0x07, 0, 1, 0x0A, 0, 0, 0]).decoded = .instr (.bne 0 1 10) ∧
    (machine [5, 6] 0 0 [0x07, 0, 1, 0x0A, 0, 0, 0]).decoded = .instr (.bne 0 1 10) ∧
    (machine [5, 6] 0 0 [0x06, 1]).decoded = .instr (.dec 1) ∧
    (Instr.bne 0 1 10).WellFormed 2 ∧ (Instr.dec 1).WellFormed 2 ∧
    (machine [5, 6] 0 0 [0x06, 1]).pc.toNat < (machine [5, 6] 0 0 [0x06, 1]).prog.len.toNat ∧
    (after (machine [5, 6] 0 0 [0x06, 1])).pc ≠ 0 := by decide

/-- EncodedInstructionAtPcRuns: every byte of the encoding stands at `PC`. -/
theorem test_witness_encoded :
    (machine [5, 6] 0 1 [0x08, 0x06, 1]).run = .running ∧ ∀ k, k < (Instr.dec 1).length →
      (machine [5, 6] 0 1 [0x08, 0x06, 1]).prog.byteAt (1 + k) = (encode (.dec 1))[k]? := by decide

/-- PlacedTableWordRuns: in the reset state, at the lowest PC and at the greatest it admits. -/
theorem test_witness_placed :
    State.reset.prog.wf = true ∧ State.reset.pc.toNat + maxInstrLength ≤ Config.maxProgramLength ∧
    (0xFFFFFFF8 : Word).toNat + maxInstrLength = Config.maxProgramLength ∧
    decodeTableWord 16 0x0106 = some (.dec 1) := by decide

/-- HaltsExactlyAtEndOfProgram, FaultsArePrecise, FaultCauses and RunStateTransitions: a running machine whose step
halts, one that raises each fault, and one that completes. -/
theorem test_witness_run :
    (machine [0] 0 1 [0x08]).run = .running ∧ (after (machine [0] 0 1 [0x08])).run = .halted ∧
    (after (machine [0] 0 0 [0x09])).run = .faulted .unknownOpcode ∧
    (after (machine [0] 0 0 [0x05])).run = .faulted .decodeError ∧
    (after (machine [0] 0 0 [0x05, 1])).run = .faulted .registerOutOfRange ∧
    (after (machine [0] 0 0 [0x05, 0])).run = .running := by decide

/-- A step of each of those machines answers a next state. -/
theorem test_witness_run_next : (∃ t, step (machine [0] 0 1 [0x08]) = .next t) ∧
    (∃ t, step (machine [0] 0 0 [0x09]) = .next t) ∧ (∃ t, step (machine [0] 0 0 [0x05]) = .next t) ∧
    (∃ t, step (machine [0] 0 0 [0x05, 1]) = .next t) ∧ (∃ t, step (machine [0] 0 0 [0x05, 0]) = .next t) :=
  ⟨⟨_, rfl⟩, ⟨_, rfl⟩, ⟨_, rfl⟩, ⟨_, rfl⟩, ⟨_, rfl⟩⟩

/-- InvalidIndexRefusedAtExecution and OutOfRangeFieldChangesOnlyRun, at the index REG_COUNT; and a file of 256. -/
theorem test_witness_range :
    (machine [0] 0 0 [0x05, 1]).run = .running ∧ (machine [0] 0 0 [0x05, 1]).decoded = .instr (.add 1) ∧
    (machine [0] 0 0 [0x05, 1]).pc.toNat < (machine [0] 0 0 [0x05, 1]).prog.len.toNat ∧
    (∃ r ∈ (Instr.add 1).regFields, (machine [0] 0 0 [0x05, 1]).regCount ≤ r.toNat) := by decide

/-- InvalidIndexRefusedAtExecution, third clause: a file of 256 registers. -/
theorem test_witness_range_max : State.reset.regCount = 256 ∧ State.reset.cfgRegCountPort = 256 := by decide +kernel

/-- RunStateTransitions, RunParametersNeverChange and OutputOnlyGrows: a state a step reaches. -/
theorem test_witness_reaches : Reaches (machine [7] 3 0 [0x08]) (after (machine [7] 3 0 [0x08])) :=
  .more .start rfl

/-- TerminalStatesAreFrozen and OnlyResetLeavesTerminal: a halted machine, and a reset of it. -/
theorem test_witness_terminal :
    State.Ended { machine [7] 3 1 [0x08] with run := .halted } ∧
    (after (machine [7] 3 1 [0x08])).applyReset.run ≠ (after (machine [7] 3 1 [0x08])).run := by decide

/-- OnlyResetLeavesTerminal: the event that answers. -/
theorem test_witness_reset_event :
    onEvent (after (machine [7] 3 1 [0x08])) .reset = .next (machine [0] 0 0 [0x08]) := rfl

/-- RegisterWritersComplete, AccumulatorWritersComplete and BranchAndPrintComplete: at the greatest valid index, the
two registers equal and different. -/
theorem test_witness_complete :
    (machine [5, 5] 0 0 []).run = .running ∧ (1 : RegIndex).toNat < (machine [5, 5] 0 0 []).regCount ∧
    (0 : RegIndex).toNat < (machine [5, 5] 0 0 []).regCount ∧
    (machine [5, 5] 0 0 []).readReg 1 = (machine [5, 5] 0 0 []).readReg 0 ∧
    (machine [5, 6] 0 0 []).readReg 1 ≠ (machine [5, 6] 0 0 []).readReg 0 := by decide

/-- The frames, NoInstructionTouchesMemory, AccumulatorOnlyByAccessMode and OperandDirections: `exec` answers a next
state, with the field in range and out of it, and some register is not `v1`. -/
theorem test_witness_frames :
    (∃ t, exec (.dec 1) (machine [5, 6] 0 0 []) = .next t) ∧ (∃ t, exec (.dec 2) (machine [5, 6] 0 0 []) = .next t) ∧
    (∃ t, exec (.lda 1) (machine [5, 6] 0 0 []) = .next t) ∧ (∃ t, exec (.lda 2) (machine [5, 6] 0 0 []) = .next t) ∧
    (∃ t, exec (.bne 0 1 9) (machine [5, 6] 0 0 []) = .next t) ∧ (∃ t, exec .print (machine [5, 6] 0 0 []) = .next t) ∧
    (0 : RegIndex) ≠ 1 :=
  ⟨⟨_, rfl⟩, ⟨_, rfl⟩, ⟨_, rfl⟩, ⟨_, rfl⟩, ⟨_, rfl⟩, ⟨_, rfl⟩, by decide⟩

/-- AccumulatorOnlyByAccessMode and OperandDirections: modes and operands of each kind. -/
theorem test_witness_modes :
    (accMode .dec).writes = false ∧ (accMode .lda).reads = false ∧ (accMode .lda).writes = true ∧
    writesReg (.mov 1 2) 2 = false ∧ readsReg (.mov 1 2) 1 = false ∧ writesReg (.mov 1 2) 1 = true ∧
    (Instr.mov 1 2).WellFormed (machine [5, 6, 7] 0 0 []).regCount := by decide

/-- EventsKeepConfigured and BootHoldsTheProgram: configured machines at both ends of the range of REG_COUNT. -/
theorem test_witness_configured :
    (State.boot 1 [0x08]).Configured ∧ (1 : Nat) ≤ 1 ∧ (256 : Nat) ≤ 256 ∧ [(0x08 : Byte)].length ≤ 2 ^ 32 - 1 := by
  decide

/-- A configured machine of 256 registers, which a step leaves one. -/
theorem test_witness_configured_max :
    (State.boot 256 []).Configured ∧ (∃ t, onEvent (State.boot 256 []) .step = .next t) :=
  ⟨by decide +kernel, ⟨_, rfl⟩⟩

/-- CanonicalMemoriesAreEqual: canonical memories. -/
theorem test_witness_canonical :
    (Memory.ofBytes [0x01, 0x00, 0x03]).wf = true ∧ (Memory.ofBytes []).wf = true ∧
    Memory.wf { len := 2, cells := [(0, 0)] } = false ∧ Memory.wf { len := 2, cells := [(2, 1)] } = false ∧
    Memory.wf { len := 2, cells := [(1, 1), (0, 1)] } = false := by decide

/-- OrdinaryOutcomesAreNoFaults: an `add` that overflows, a `dec` below zero, a `bne`, and the end of the program. -/
theorem test_witness_ordinary :
    (machine [1, 0] 0xFFFFFFFF 0 [0x05, 0]).decoded = .instr (.add 0) ∧
    (machine [1, 0] 0 0 [0x06, 1]).decoded = .instr (.dec 1) ∧
    (machine [1, 0] 0 0 [0x07, 0, 1, 9, 0, 0, 0]).decoded = .instr (.bne 0 1 9) ∧
    (machine [1, 0] 0 0 [0x06, 1]).run = .running ∧ (1 : RegIndex).toNat < (machine [1, 0] 0 0 [0x06, 1]).regCount ∧
    (machine [1, 0] 0 0 [0x06, 1]).pc.toNat < (machine [1, 0] 0 0 [0x06, 1]).prog.len.toNat ∧
    (machine [1, 0] 0 2 [0x06, 1]).prog.len.toNat ≤ (machine [1, 0] 0 2 [0x06, 1]).pc.toNat := by decide

/-- A taken branch at address 0 to an address of its own ten-byte program. -/
def branching (target : Byte) : State :=
  machine [5, 5] 0 0 [0x07, 0, 1, target, 0, 0, 0, 0x09, 0x08, 0x05]

/-- TakenBranchTargets: its hypotheses, with the target at the end of the program. -/
theorem test_witness_branch :
    (branching 10).run = .running ∧ (branching 10).pc.toNat < (branching 10).prog.len.toNat ∧
    (branching 10).decoded = .instr (.bne 0 1 10) ∧ (1 : RegIndex).toNat < (branching 10).regCount ∧
    (branching 10).readReg 0 = (branching 10).readReg 1 ∧ (branching 10).prog.len.toNat ≤ (10 : Word).toNat := by decide

/-- TakenBranchTargets: a target at an illegal byte, at a truncated instruction and at a whole one. -/
theorem test_witness_branch_targets :
    (branching 7).prog.byteAt 7 = some 0x09 ∧
    (branching 9).prog.byteAt 9 = some Op.add.byte ∧ (branching 9).prog.len.toNat - 9 < Op.add.length ∧
    (∀ k, k < Instr.print.length → (branching 8).prog.byteAt (8 + k) = (encode .print)[k]?) := by decide

/-- A `bne` of register 0 with itself, at address 1, to itself. -/
def selfBranch : State :=
  machine [5] 0 1 [0x08, 0x07, 0, 0, 1, 0, 0, 0]

/-- SelfBranchNeverEnds. -/
theorem test_witness_selfBranch :
    selfBranch.run = .running ∧ selfBranch.pc.toNat < selfBranch.prog.len.toNat ∧
    (0 : RegIndex).toNat < selfBranch.regCount ∧ selfBranch.decoded = .instr (.bne 0 0 selfBranch.pc) := by decide

/-- NeverFaultsExactlyWhenAllExecutes and RunHasOneObservation: the machine of the empty program never faults, and the
state its first step reaches has ended. -/
theorem test_witness_clean :
    NeverFaults (machine [5] 0 0 []) ∧ Reaches (machine [5] 0 0 []) (after (machine [5] 0 0 [])) ∧
    (after (machine [5] 0 0 [])).Ended := by
  have reached : ∀ t, Reaches (machine [5] 0 0 []) t →
      t = machine [5] 0 0 [] ∨ t = after (machine [5] 0 0 []) := by
    intro t h
    induction h with
    | start => exact .inl rfl
    | more _ hs ih =>
      rcases ih with rfl | rfl <;> (cases hs; exact .inr rfl)
  refine ⟨fun t h reason => ?_, .more .start rfl, by decide⟩
  rcases reached t h with rfl | rfl <;> exact fun e => by cases e

/-- NeverFaultsExactlyWhenAllExecutes: a machine that never faults and starts inside its program, at a `print`, so that
its right side speaks of a state; its run then ends at the end of the program. -/
theorem test_witness_clean_print :
    NeverFaults (machine [5] 3 0 [0x08]) ∧ (machine [5] 3 0 [0x08]).run = .running ∧
    (machine [5] 3 0 [0x08]).pc.toNat < (machine [5] 3 0 [0x08]).prog.len.toNat ∧
    (machine [5] 3 0 [0x08]).decoded = .instr .print ∧
    Reaches (machine [5] 3 0 [0x08]) (after (after (machine [5] 3 0 [0x08]))) ∧
    (after (after (machine [5] 3 0 [0x08]))).run = .halted := by
  have reached : ∀ t, Reaches (machine [5] 3 0 [0x08]) t → t = machine [5] 3 0 [0x08] ∨
      t = after (machine [5] 3 0 [0x08]) ∨ t = after (after (machine [5] 3 0 [0x08])) := by
    intro t h
    induction h with
    | start => exact .inl rfl
    | more _ hs ih =>
      rcases ih with rfl | rfl | rfl <;> cases hs
      · exact .inr (.inl rfl)
      · exact .inr (.inr rfl)
      · exact .inr (.inr rfl)
  refine ⟨fun t h reason => ?_, by decide, by decide, by decide, .more (.more .start rfl) rfl, by decide⟩
  rcases reached t h with rfl | rfl | rfl <;> exact fun e => by cases e

/-- MachinesAreIsolated: two machines. -/
theorem test_witness_machines :
    (0 : Nat) ≠ 1 ∧ [machine [5] 0 0 [], machine [6] 0 0 []][1]? = some (machine [6] 0 0 []) := by decide

end Sys2Proof.Tests
end

section
/-! SUPPORT. The proofs of the statements of spec/10_state.md: register indices (R22), the accumulator (R23) and the run
state (R29), with the facts about the decoder, `step` and the execute arms that they rest on. -/

namespace Sys2Proof

/-! ### The encoding read back -/

/-- R73: the bytes after the opcode byte hold the instruction's own fields, whatever bytes follow. -/
theorem Op.readFields_encode_tail (i : Instr) (rest : List Byte) :
    i.op.readFields ((encode i).tail ++ rest) = some i := by
  cases i <;> simp [encode, immBytes, Instr.op, Op.readFields, immOfBytes_immByte]

/-- R73: an instruction's encoding decodes to it, whatever bytes follow. -/
theorem decode_encode_append (i : Instr) (rest : List Byte) : decode (encode i ++ rest) = .instr i := by
  have hcons : encode i = i.op.byte :: (encode i).tail := by cases i <;> rfl
  rw [hcons, List.cons_append, decode_op, Op.readFields_encode_tail]

/-- An encoding with no bytes after it decodes to its instruction. -/
theorem decode_encode (i : Instr) : decode (encode i) = .instr i := by
  simpa using decode_encode_append i []

/-! ### Indices of the register file -/

/-- R22: an instruction is not well formed exactly when some register field is at or above REG_COUNT. -/
theorem Instr.not_wellFormed_iff {n : Nat} {i : Instr} :
    ¬ i.WellFormed n ↔ ∃ r ∈ i.regFields, n ≤ r.toNat := by
  simp [Instr.WellFormed]

/-- R22: a register field is one byte, so with 256 registers every index is valid. -/
theorem Instr.wellFormed_256 (i : Instr) : i.WellFormed 256 :=
  fun r _ => r.isLt

end Sys2Proof

namespace Sys2Proof.Machine

/-! ### Steps that run an instruction, and steps from an ended machine -/

/-- R90: a running machine inside its program does what its decoded instruction does. -/
theorem step_instr {s : State} {i : Instr} (hr : s.run = .running) (hp : s.pc.toNat < s.prog.len.toNat)
    (hd : s.decoded = .instr i) : step s = exec i s := by
  rw [step_decoded hr hp, hd]

/-- R98, R100: a step leaves an ended machine as it is. -/
theorem step_ended {s t : State} (he : s.Ended) (h : step s = .next t) : t = s := by
  obtain ⟨-, ht⟩ | ⟨hr, -⟩ | ⟨hr, -⟩ := step_cases h
  · exact ht
  · exact absurd hr he
  · exact absurd hr he

/-- R29, R98: an ended machine reaches no state but its own. -/
theorem Reaches.eq_of_ended {s t : State} (he : s.Ended) (h : Reaches s t) : t = s := by
  induction h with
  | start => rfl
  | more _ hstep ih =>
    subst ih
    exact step_ended he hstep

/-! ### The accumulator and the execute arms -/

/-- R23: an execute arm whose mode does not write leaves `ACC`. -/
theorem armResult_acc_of_not_writes {i : Instr} (h : (accMode i.op).writes = false) (s : State) :
    (armResult i s).acc = s.acc := by
  cases i with
  | ldai | lda | add => cases h
  | mov | movi | sta | dec | print => rfl
  | bne =>
    simp only [armResult]
    split <;> rfl

/-- R23: an execute arm whose mode does not read does the same whatever `ACC` holds: its own `ACC` stands if it
writes one, and the given one otherwise. -/
theorem armResult_writeAcc_of_not_reads {i : Instr} (h : (accMode i.op).reads = false) (s : State) (a : Word) :
    armResult i (s.writeAcc a) =
      (armResult i s).writeAcc (if (accMode i.op).writes then (armResult i s).acc else a) := by
  cases i with
  | sta | add | print => cases h
  | mov | movi | ldai | lda | dec => rfl
  | bne v1 v2 imm =>
    cases heq : wordsEqual (s.readReg v1) (s.readReg v2) <;>
      simp only [armResult, State.writeAcc_readReg, heq] <;> rfl

/-- R23: `exec` leaves `ACC` under a mode that does not write. -/
theorem exec_acc_of_not_writes {i : Instr} {s t : State} (h : exec i s = .next t)
    (hm : (accMode i.op).writes = false) : t.acc = s.acc := by
  obtain ⟨-, rfl⟩ | ⟨-, rfl⟩ := exec_cases h
  · exact armResult_acc_of_not_writes hm s
  · rfl

/-- R23: under a mode that does not read, `exec` from another `ACC` does the same to everything else; a faulting
instruction writes no `ACC`, whatever its mode. -/
theorem exec_writeAcc_of_not_reads {i : Instr} {s t : State} (a : Word) (h : exec i s = .next t)
    (hm : (accMode i.op).reads = false) :
    exec i (s.writeAcc a) =
      .next (t.writeAcc (if (accMode i.op).writes ∧ i.WellFormed s.regCount then t.acc else a)) := by
  obtain ⟨hw, rfl⟩ | ⟨hw, rfl⟩ := exec_cases h
  · have hw' : i.WellFormed (s.writeAcc a).regCount := hw
    simp only [exec_wellFormed hw', armResult_writeAcc_of_not_reads hm, and_iff_left hw]
  · have hw' : ¬ i.WellFormed (s.writeAcc a).regCount := hw
    rw [exec_not_wellFormed hw', if_neg fun e => hw e.2]
    rfl

/-! ### The statements -/

/-- Settles O18: the round trip of the decoder, the range check of `exec`, and the width of a register field. -/
theorem invalidIndexRefusedAtExecution : Obligations.InvalidIndexRefusedAtExecution := by
  refine ⟨decode_encode, fun s i hr hp hd hi => ?_, fun s i hn => ?_⟩
  · have hstep : step s = .next (s.raiseFault .registerOutOfRange) := by
      rw [step_instr hr hp hd, exec_not_wellFormed (Instr.not_wellFormed_iff.2 hi)]
    exact ⟨_, hstep, rfl⟩
  · rw [hn]
    exact i.wellFormed_256

/-- Settles O23: the cases of a step from Running, and by induction on the steps from a terminal state. -/
theorem runStateTransitions : Obligations.RunStateTransitions := by
  refine ⟨fun _ _ => rfl, fun s t h hr => ?_, fun s t h he => by rw [h.eq_of_ended he]⟩
  obtain ⟨he, -⟩ | ⟨-, hp, rfl⟩ | ⟨-, hp, hdec⟩ := step_cases h
  · exact absurd hr he
  · exact .inr (.inl ⟨rfl, hp⟩)
  · obtain ⟨hd, rfl⟩ | ⟨hd, rfl⟩ | ⟨i, hd, hexec⟩ := hdec
    · exact .inr (.inr (.inl ⟨rfl, hd⟩))
    · exact .inr (.inr (.inr (.inl ⟨rfl, hd⟩)))
    · obtain ⟨hw, rfl⟩ | ⟨hw, rfl⟩ := hexec
      · exact .inl ⟨by rw [armResult_run, hr], hp, i, hd, hw, exec_wellFormed hw⟩
      · exact .inr (.inr (.inr (.inr ⟨rfl, i, hd, hw⟩)))

/-- Settles O49: the register operations leave `ACC` and do not see it, and `exec` follows the instruction's access
mode in both directions. -/
theorem accumulatorOnlyByAccessMode : Obligations.AccumulatorOnlyByAccessMode :=
  ⟨fun _ _ _ _ => ⟨rfl, rfl⟩, fun _ _ _ h hm => exec_acc_of_not_writes h hm,
    fun _ _ _ a h hm => exec_writeAcc_of_not_reads a h hm⟩

end Sys2Proof.Machine
end

section
/-! SUPPORT. The proof of the statement of spec/20_memory.md: no instruction reads or writes memory as data (R41). -/

namespace Sys2Proof.Machine

/-! ### Another program under the same state -/

/-- R41: no execute arm reads the program: over any other one it leaves the same state, that program apart. -/
theorem armResult_withProg (i : Instr) (s : State) (m : Memory) :
    armResult i { s with prog := m } = { armResult i s with prog := m } := by
  cases i with
  | mov | movi | ldai | lda | sta | add | dec | print => rfl
  | bne v1 v2 imm =>
    have hread (r : RegIndex) : State.readReg { s with prog := m } r = s.readReg r := State.readReg_congr rfl r
    simp only [armResult, hread]
    split <;> rfl

/-- R41: `exec` leaves the program as it is, whether the range check holds or fails. -/
theorem exec_prog {i : Instr} {s t : State} (h : exec i s = .next t) : t.prog = s.prog := by
  obtain ⟨-, rfl⟩ | ⟨-, rfl⟩ := exec_cases h
  · exact armResult_prog i s
  · rfl

/-- R41: over any other program `exec` does the same to everything else; the range check reads the register count
alone. -/
theorem exec_withProg {i : Instr} {s t : State} (h : exec i s = .next t) (m : Memory) :
    exec i { s with prog := m } = .next { t with prog := m } := by
  obtain ⟨hw, rfl⟩ | ⟨hw, rfl⟩ := exec_cases h
  · have hw' : i.WellFormed (State.regCount { s with prog := m }) := hw
    rw [exec_wellFormed hw', armResult_withProg]
  · have hw' : ¬ i.WellFormed (State.regCount { s with prog := m }) := hw
    rw [exec_not_wellFormed hw']
    rfl

/-! ### The statement -/

/-- Settles O42: `exec` keeps the program, and its range check and execute arms do not read it. -/
theorem noInstructionTouchesMemory : Obligations.NoInstructionTouchesMemory :=
  fun _ _ _ h => ⟨exec_prog h, exec_withProg h⟩

end Sys2Proof.Machine
end

section
/-! SUPPORT. The proofs of the statements of spec/30_encoding.md: the opcode table (R67), lengths (R69), illegal and
truncated encodings (R68, R71), immediates (R65) and the decoder's pseudocode (R70). The fact behind the last two: what
the decoder reads at `PC` is an instruction whose encoding stands in the program there. -/

namespace Sys2Proof

/-! ### The opcode byte and the length of an encoding -/

/-- R67: different ids have different opcode bytes. -/
theorem Op.byte_injective {o o' : Op} (h : o.byte = o'.byte) : o = o' :=
  Option.some.inj (by rw [← Op.ofByte_byte, h, Op.ofByte_byte])

/-- R67, R69: every encoding begins with its id's opcode byte and is as long as the id says. -/
theorem encodedShape (i : Instr) : Laws.EncodedShape.Statement i :=
  match i with
  | .mov v1 v2 => Laws.EncodedShape.mov v1 v2
  | .movi v1 imm => Laws.EncodedShape.movi v1 imm
  | .ldai imm => Laws.EncodedShape.ldai imm
  | .lda v1 => Laws.EncodedShape.lda v1
  | .sta v1 => Laws.EncodedShape.sta v1
  | .add v1 => Laws.EncodedShape.add v1
  | .dec v1 => Laws.EncodedShape.dec v1
  | .bne v1 v2 imm => Laws.EncodedShape.bne v1 v2 imm
  | .print => Laws.EncodedShape.print

theorem encode_head? (i : Instr) : (encode i).head? = some i.op.byte :=
  (encodedShape i).1

@[simp] theorem encode_length (i : Instr) : (encode i).length = i.length :=
  (encodedShape i).2

/-- R67: a decoded instruction is of the id its first byte selects. -/
theorem ofByte_of_decode_cons {b : Byte} {rest : List Byte} {i : Instr} (h : decode (b :: rest) = .instr i) :
    Op.ofByte b = some i.op := by
  obtain ⟨_, hbytes, -⟩ := decode_instr h
  obtain ⟨rfl, -⟩ := List.cons.inj hbytes
  exact i.op.ofByte_byte

/-! ### The bytes a decoded instruction came from -/

/-- R65: four bytes in address order are the bytes of the immediate they assemble to. -/
theorem immBytes_immOfBytes (b0 b1 b2 b3 : Byte) : immBytes (immOfBytes b0 b1 b2 b3) = [b0, b1, b2, b3] := by
  have h0 := b0.isLt; have h1 := b1.isLt; have h2 := b2.isLt; have h3 := b3.isLt
  simp only [immBytes, immByte, List.cons.injEq, and_true]
  refine ⟨?_, ?_, ?_, ?_⟩ <;> apply BitVec.eq_of_toNat_eq <;>
    rw [BitVec.extractLsb'_toNat, immOfBytes_toNat, Nat.shiftRight_eq_div_pow] <;> omega

/-- R73: the fields read are the encoding's bytes after the opcode byte. -/
theorem Op.readFields_eq_some {o : Op} {rest : List Byte} {i : Instr} (h : o.readFields rest = some i) :
    ∃ more, rest = (encode i).tail ++ more := by
  unfold Op.readFields at h
  split at h <;> cases h <;> simp [encode, immBytes_immOfBytes]

/-- R73: bytes that decode to an instruction begin with its encoding. -/
theorem decode_eq_instr {bytes : List Byte} {i : Instr} (h : decode bytes = .instr i) :
    ∃ more, bytes = encode i ++ more := by
  obtain ⟨rest, rfl, hread⟩ := decode_instr h
  obtain ⟨more, rfl⟩ := Op.readFields_eq_some hread
  exact ⟨more, by rw [← List.cons_append, List.cons_head?_tail (encode_head? i)]⟩

end Sys2Proof

namespace Sys2Proof.Machine

/-! ### Reading the program -/

/-- R45: there is no byte at `L` and above. -/
theorem Memory.byteAt_eq_none {m : Memory} {a : Nat} (h : m.len.toNat ≤ a) : m.byteAt a = none := by
  simp [Memory.byteAt, h]

/-- R45: a byte is there only below `L`. -/
theorem Memory.lt_of_byteAt {m : Memory} {a : Nat} {b : Byte} (h : m.byteAt a = some b) : a < m.len.toNat :=
  (m.byteAt_isSome a).1 (by rw [h]; rfl)

/-- R8: four bytes in a row are read as the word they assemble to. -/
theorem Memory.readWord_of_byteAt {m : Memory} {a : Nat} {b0 b1 b2 b3 : Byte} (h0 : m.byteAt a = some b0)
    (h1 : m.byteAt (a + 1) = some b1) (h2 : m.byteAt (a + 2) = some b2) (h3 : m.byteAt (a + 3) = some b3) :
    m.readWord a = some (immOfBytes b0 b1 b2 b3) := by
  simp only [Memory.readWord, h0, h1, h2, h3]

/-- Each byte that a window holds stands in the program at its address. -/
theorem Memory.byteAt_of_window {m : Memory} {a n k : Nat} {b : Byte} {bytes : List Byte}
    (h : m.window a n = bytes) (hb : bytes[k]? = some b) : m.byteAt (a + k) = some b := by
  subst h
  have hlt := (List.getElem?_eq_some_iff.1 hb).1
  rw [Memory.window_length] at hlt
  rw [← Memory.window_getElem m a n k (by omega), hb]

/-- R65: where a window ends in the bytes of an immediate, the program's word there is that immediate. -/
theorem Memory.readWord_of_window {m : Memory} {a n k : Nat} {bytes : List Byte} {imm : Word}
    (h : m.window a n = bytes) (himm : bytes.drop k = immBytes imm) : m.readWord (a + k) = some imm := by
  have hbyte (j : Nat) (b : Byte) (hj : (immBytes imm)[j]? = some b) : m.byteAt (a + k + j) = some b := by
    rw [← himm, List.getElem?_drop] at hj
    rw [Nat.add_assoc]
    exact Memory.byteAt_of_window h hj
  rw [Memory.readWord_of_byteAt (a := a + k) (hbyte 0 _ rfl) (hbyte 1 _ rfl) (hbyte 2 _ rfl) (hbyte 3 _ rfl),
    immOfBytes_immByte]

/-! ### The decoder at `PC` -/

/-- R71: a fetch has no more bytes than remain. -/
theorem State.fetchBytes_length_le (s : State) : s.fetchBytes.length ≤ s.prog.len.toNat - s.pc.toNat := by
  unfold State.fetchBytes
  split
  · exact Nat.zero_le _
  next hbyte =>
    split
    · have := Memory.lt_of_byteAt hbyte
      rw [List.length_singleton]
      omega
    · rw [Memory.window_length]
      exact Nat.min_le_right _ _

/-- R44: the first byte fetched is the program's at `PC`. -/
theorem State.fetchBytes_head? (s : State) : s.fetchBytes.head? = s.prog.byteAt s.pc.toNat := by
  cases hb : s.prog.byteAt s.pc.toNat with
  | none => simp [State.fetchBytes, hb]
  | some b =>
    cases ho : Op.ofByte b with
    | none => simp [State.fetchBytes, hb, ho]
    | some o =>
      obtain rfl := Op.byte_of_ofByte ho
      rw [State.fetchBytes_cons hb, List.head?_cons]

/-- The encoding of a decoded instruction stands in the program from `PC` on. -/
theorem State.window_of_decoded {s : State} {i : Instr} (h : s.decoded = .instr i) :
    s.prog.window s.pc.toNat i.length = encode i := by
  obtain ⟨more, hbytes⟩ := decode_eq_instr h
  have hpc : s.prog.byteAt s.pc.toNat = some i.op.byte := by
    rw [← State.fetchBytes_head?, hbytes, List.head?_append, encode_head?, Option.some_or]
  have hwin : s.prog.window s.pc.toNat i.length = encode i ++ more := by
    rw [← hbytes]
    exact (State.fetchBytes_op hpc).symm
  have hmore : more = [] := by
    have hlen := s.prog.window_length s.pc.toNat i.length
    rw [hwin, List.length_append, encode_length] at hlen
    exact List.eq_nil_of_length_eq_zero (by omega)
  rw [hwin, hmore, List.append_nil]

/-- A window that is an encoding lies below `L`. -/
theorem Memory.end_le_of_window {m : Memory} {a : Nat} {i : Instr} (h : m.window a i.length = encode i) :
    a + i.length ≤ m.len.toNat := by
  have hlen := m.window_length a i.length
  have hpos : 1 ≤ i.length := i.op.length_bounds.1
  rw [h, encode_length] at hlen
  omega

/-- R71: a legal opcode with too few bytes left is a DecodeError. -/
theorem State.decoded_truncated {s : State} {o : Op} (hb : s.prog.byteAt s.pc.toNat = some o.byte)
    (hlen : s.prog.len.toNat < s.pc.toNat + o.length) : s.decoded = .truncated := by
  have hpc := Memory.lt_of_byteAt hb
  have hnone : o.readFields (s.prog.window (s.pc.toNat + 1) (o.length - 1)) = none := by
    rw [← Option.not_isSome_iff_eq_none, Op.readFields_isSome, Memory.window_length]
    omega
  rw [State.decoded_op hb, hnone]

/-- R70: a legal opcode with its whole instruction below `L` decodes to an instruction of its id. -/
theorem State.decoded_whole {s : State} {o : Op} (hb : s.prog.byteAt s.pc.toNat = some o.byte)
    (hlen : s.pc.toNat + o.length ≤ s.prog.len.toNat) : ∃ i, i.op = o ∧ s.decoded = .instr i := by
  have hsome : (o.readFields (s.prog.window (s.pc.toNat + 1) (o.length - 1))).isSome = true := by
    rw [Op.readFields_isSome, Memory.window_length]
    omega
  obtain ⟨i, hi⟩ := Option.isSome_iff_exists.1 hsome
  exact ⟨i, Op.readFields_op hi, by rw [State.decoded_op hb, hi]⟩

/-- R26, R93: the sum that gives the next PC does not wrap below 2^32. -/
theorem State.nextPc_toNat {s : State} {o : Op} (h : s.pc.toNat + o.length < 2 ^ 32) :
    (s.nextPc o).toNat = s.pc.toNat + o.length := by
  rw [State.nextPc, BitVec.toNat_add, BitVec.toNat_ofNat, Nat.add_mod_mod, Nat.mod_eq_of_lt h]

/-! ### The pseudocode -/

/-- R70: where an encoding stands in the program, the pseudocode reads its instruction. -/
theorem decodeAt_of_window {m : Memory} {a : Nat} {i : Instr} (h : m.window a i.length = encode i) :
    Reference.decodeAt m a = some (.instr i) := by
  have hbyte (k : Nat) (b : Byte) (hb : (encode i)[k]? = some b) : m.byteAt (a + k) = some b :=
    Memory.byteAt_of_window h hb
  have hword (k : Nat) (imm : Word) (hd : (encode i).drop k = immBytes imm) : m.readWord (a + k) = some imm :=
    Memory.readWord_of_window h hd
  have hop : m.byteAt a = some i.op.byte := hbyte 0 _ (by rw [← List.head?_eq_getElem?, encode_head?])
  have hend : ¬ a + i.op.length > m.len.toNat := Nat.not_lt.2 (Memory.end_le_of_window h)
  simp only [Reference.decodeAt, hop, Op.ofByte_byte, hend, if_false]
  cases i with
  | mov v1 v2 => simp [Instr.op, hbyte 1 v1 rfl, hbyte 2 v2 rfl]
  | movi v1 imm => simp [Instr.op, hbyte 1 v1 rfl, hword 2 imm rfl]
  | ldai imm => simp [Instr.op, hword 1 imm rfl]
  | lda v1 | sta v1 | add v1 | dec v1 => simp [Instr.op, hbyte 1 v1 rfl]
  | bne v1 v2 imm => simp [Instr.op, hbyte 1 v1 rfl, hbyte 2 v2 rfl, hword 3 imm rfl]
  | print => rfl

/-- R70: the pseudocode's answer is the decoder's, in each of its three branches. -/
theorem decodeAt_eq_decoded {s : State} (hp : s.pc.toNat < s.prog.len.toNat) :
    Reference.decodeAt s.prog s.pc.toNat = some s.decoded := by
  obtain ⟨b, hb⟩ := Option.isSome_iff_exists.1 ((s.prog.byteAt_isSome _).2 hp)
  cases ho : Op.ofByte b with
  | none =>
    rw [State.decoded_unknown hb (Op.ofByte_eq_none.1 ho)]
    simp only [Reference.decodeAt, hb, ho]
  | some o =>
    obtain rfl := Op.byte_of_ofByte ho
    rcases Nat.lt_or_ge s.prog.len.toNat (s.pc.toNat + o.length) with hlen | hlen
    · rw [State.decoded_truncated hb hlen]
      simp only [Reference.decodeAt, hb, ho, gt_iff_lt, hlen, if_true]
    · obtain ⟨i, -, hi⟩ := State.decoded_whole hb hlen
      rw [hi, decodeAt_of_window (State.window_of_decoded hi)]

/-! ### The statements -/

/-- Settles O6: a word is its four bytes, and the encoding of the decoded instruction stands at `PC`, its immediate at
the end. -/
theorem immediateIsLittleEndian : Obligations.ImmediateIsLittleEndian := by
  refine ⟨fun m a b0 b1 b2 b3 h0 h1 h2 h3 => ?_, fun s v1 imm h => ?_, fun s imm h => ?_, fun s v1 v2 imm h => ?_⟩
  · have hbytes := immBytes_immOfBytes b0 b1 b2 b3
    simp only [immBytes, immByte, List.cons.injEq] at hbytes
    obtain ⟨hlow, -, -, hhigh, -⟩ := hbytes
    exact ⟨_, Memory.readWord_of_byteAt h0 h1 h2 h3, rfl, hlow, hhigh, immOfBytes_toNat b0 b1 b2 b3⟩
  all_goals exact Memory.readWord_of_window (State.window_of_decoded h) rfl

/-- Settles O7: the decoder's answer to a byte above 0x08, and the round trip for every operand value. -/
theorem illegalOpcodeFaults : Obligations.IllegalOpcodeFaults := by
  refine ⟨fun s b hr hb h9 => ⟨s.raiseFault .unknownOpcode, ?_, rfl⟩, decode_encode⟩
  rw [step_decoded hr (Memory.lt_of_byteAt hb), State.decoded_unknown hb h9]

/-- Settles O8: the field reader needs the whole length, and neither a fetch nor a byte goes past `L`. -/
theorem truncatedInstructionIsDecodeError : Obligations.TruncatedInstructionIsDecodeError := by
  refine ⟨fun s o hb hlen => ?_, fun _ _ => Memory.byteAt_eq_none, State.fetchBytes_length_le⟩
  have hpc := Memory.lt_of_byteAt hb
  have hdec : s.decoded = .truncated := State.decoded_truncated hb (by omega)
  refine ⟨hdec, fun hr => ⟨s.raiseFault .decodeError, ?_, rfl⟩⟩
  rw [step_decoded hr hpc, hdec]

/-- Settles O9: branch by branch of the pseudocode; a decoded instruction ends at `L` or before, so its next PC does
not wrap. -/
theorem decoderFollowsPseudocode : Obligations.DecoderFollowsPseudocode := by
  refine fun s hp => ⟨decodeAt_eq_decoded hp, fun i hi => State.nextPc_toNat ?_⟩
  exact Nat.lt_of_le_of_lt (Memory.end_le_of_window (State.window_of_decoded hi)) s.prog.len.isLt

/-- Settles O3: `Op.byte` and `Op.ofByte` are inverse to each other, and encoder and decoder both go through them. -/
theorem opcodeAssignmentIsBijection : Obligations.OpcodeAssignmentIsBijection := by
  refine ⟨fun o => ⟨o.ofByte_byte, ?_⟩, fun b hb => ?_, encode_head?, fun _ _ _ h => ofByte_of_decode_cons h⟩
  · exact Nat.not_lt.1 fun h => by simpa using Op.ofByte_eq_none.2 h
  · have hsome : Op.ofByte b ≠ none := fun h => Nat.not_lt.2 hb (Op.ofByte_eq_none.1 h)
    obtain ⟨o, ho⟩ := Option.ne_none_iff_exists'.1 hsome
    exact ⟨o, ho, (Op.byte_of_ofByte ho).symm⟩

/-- Settles O4: the first byte fixes the id of what is encoded or decoded, and the id the length. -/
theorem lengthIsFunctionOfOpcode : Obligations.LengthIsFunctionOfOpcode := by
  refine ⟨rfl, encode_length, fun i j h => ?_, fun b rest rest' i j hi hj => ?_⟩
  · rw [encode_head?, encode_head?] at h
    rw [encode_length, encode_length, Instr.length, Op.byte_injective (Option.some.inj h), Instr.length]
  · have hop : some i.op = some j.op := (ofByte_of_decode_cons hi).symm.trans (ofByte_of_decode_cons hj)
    exact congrArg Op.length (Option.some.inj hop)

end Sys2Proof.Machine
end

section
/-! SUPPORT. The proofs of the statements of spec/40_sequencer.md: the next PC (R93), the ways to change `PC` (R96), ended
machines (R98, D7) and the answer to every event (R100), with the facts about `exec`, `step` and `steps` that they rest
on. -/

namespace Sys2Proof.Machine

/-! ### The PC -/

/-- R93: a decoded instruction ends at `L` or before. -/
theorem State.end_le_of_decoded {s : State} {i : Instr} (h : s.decoded = .instr i) :
    s.pc.toNat + i.length ≤ s.prog.len.toNat :=
  Memory.end_le_of_window (State.window_of_decoded h)

/-- R26, R93: after a successful decode the next PC does not wrap. -/
theorem State.nextPc_toNat_of_decoded {s : State} {i : Instr} (h : s.decoded = .instr i) :
    (s.nextPc i.op).toNat = s.pc.toNat + i.length :=
  State.nextPc_toNat (Nat.lt_of_le_of_lt (State.end_le_of_decoded h) s.prog.len.isLt)

/-- R140: `bne` goes to its immediate when its two registers are equal, and to the next PC otherwise. -/
theorem armResult_bne_pc (v1 v2 : RegIndex) (imm : Word) (s : State) :
    (armResult (.bne v1 v2 imm) s).pc = if s.readReg v1 = s.readReg v2 then imm else s.nextPc .bne := by
  simp only [armResult, wordsEqual_iff]
  split <;> rfl

/-- R96: every arm but that of a taken `bne` ends at the next PC. -/
theorem armResult_pc_of_not_taken {i : Instr} {s : State}
    (h : ∀ v1 v2 imm, i = .bne v1 v2 imm → s.readReg v1 ≠ s.readReg v2) :
    (armResult i s).pc = s.nextPc i.op := by
  cases i with
  | bne v1 v2 imm => exact (armResult_bne_pc v1 v2 imm s).trans (if_neg (h v1 v2 imm rfl))
  | mov | movi | ldai | lda | sta | add | dec | print => rfl

/-- R90, R94: a running machine with a decoded instruction, all its register fields in range, goes to the state its arm
leaves. -/
theorem step_wellFormed {s : State} {i : Instr} (hr : s.run = .running) (hp : s.pc.toNat < s.prog.len.toNat)
    (hd : s.decoded = .instr i) (hw : i.WellFormed s.regCount) : step s = .next (armResult i s) := by
  rw [step_instr hr hp hd, exec_wellFormed hw]

/-! ### Every step answers a next state -/

/-- R94, R95: an instruction leaves its arm's result or faults, and both are next states. -/
theorem exec_next (i : Instr) (s : State) : ∃ t, exec i s = .next t := by
  by_cases hw : i.WellFormed s.regCount
  · exact ⟨_, exec_wellFormed hw⟩
  · exact ⟨_, exec_not_wellFormed hw⟩

/-- R90, and R100 for an ended machine: each phase that ends a step gives a next state. -/
theorem step_next (s : State) : ∃ t, step s = .next t := by
  cases hr : s.run with
  | halted | faulted => exact ⟨s, by simp only [step, hr]⟩
  | running =>
    rcases Nat.lt_or_ge s.pc.toNat s.prog.len.toNat with hp | hp
    · rw [step_decoded hr hp]
      cases s.decoded with
      | unknownOpcode | truncated => exact ⟨_, rfl⟩
      | instr i => exact exec_next i s
    · exact ⟨_, step_atEnd hr hp⟩

/-! ### Ended machines -/

/-- R98, R100: a step of an ended machine answers that machine. -/
theorem step_eq_of_ended {s : State} (he : s.Ended) : step s = .next s := by
  obtain ⟨t, ht⟩ := step_next s
  rw [ht, step_ended he ht]

/-- R98, R100: any number of steps gives an ended machine back. -/
theorem steps_eq_of_ended {s : State} (he : s.Ended) (k : Nat) : steps k s = .next s := by
  induction k with
  | zero => rfl
  | succ k ih => simp only [steps, step_eq_of_ended he, ih]

/-! ### The statements -/

/-- Settles O21: a decoded instruction ends at `L` or before, so its next PC does not wrap; the nine sums are the table's
lengths. -/
theorem nextPcIsPastTheInstruction : Obligations.NextPcIsPastTheInstruction := by
  refine ⟨fun s i _ hd => ?_, fun s => ⟨rfl, rfl, rfl, rfl, rfl, rfl, rfl, rfl, rfl⟩⟩
  have hnext := State.nextPc_toNat_of_decoded hd
  exact ⟨hnext, hnext ▸ State.end_le_of_decoded hd⟩

/-- Settles O22: by whether a `bne` is taken; and of all that a step can do, only a well-formed instruction's arm writes
`PC`. -/
theorem pcSequencing : Obligations.PcSequencing := by
  refine ⟨fun s t i hr hp hd hw h => ?_, fun s t h hne => ?_⟩
  · obtain rfl : armResult i s = t := by simpa [step_wellFormed hr hp hd hw] using h
    by_cases htaken : ∃ v1 v2 imm, i = .bne v1 v2 imm ∧ s.readReg v1 = s.readReg v2
    · obtain ⟨v1, v2, imm, rfl, heq⟩ := htaken
      exact .inl ⟨v1, v2, imm, rfl, heq, (armResult_bne_pc v1 v2 imm s).trans (if_pos heq)⟩
    · have hnot : ∀ v1 v2 imm, i = .bne v1 v2 imm → s.readReg v1 ≠ s.readReg v2 :=
        fun v1 v2 imm hi heq => htaken ⟨v1, v2, imm, hi, heq⟩
      exact .inr ⟨hnot, armResult_pc_of_not_taken hnot⟩
  · obtain ⟨-, rfl⟩ | ⟨-, -, rfl⟩ | ⟨hr, hp, ⟨-, rfl⟩ | ⟨-, rfl⟩ | ⟨i, hd, ⟨hw, -⟩ | ⟨-, rfl⟩⟩⟩ := step_cases h
    · exact absurd rfl hne
    · exact absurd rfl hne
    · exact absurd rfl hne
    · exact absurd rfl hne
    · exact ⟨hr, hp, i, hd, hw⟩
    · exact absurd rfl hne

/-- Settles O24: along the steps that reach the state, and by induction on their number. -/
theorem terminalStatesAreFrozen : Obligations.TerminalStatesAreFrozen :=
  ⟨fun _ _ => Reaches.eq_of_ended, fun _ k he => steps_eq_of_ended he k⟩

/-- Settles O26: a reset answers the state after reset, and every step a next state. -/
theorem everyEventAnswersNextState : Obligations.EveryEventAnswersNextState
  | s, .reset => ⟨s.applyReset, rfl⟩
  | s, .step => step_next s

end Sys2Proof.Machine
end

section
/-! SUPPORT. The proofs of the statements of spec/41_data_movement.md: `mov`, `movi`, `ldai`, `lda` and `sta` (R110 to
R114), with what a step does at a legal opcode byte, stated once for every instruction. -/

namespace Sys2Proof

/-! ### The register fields of an instruction -/

/-- R22: an instruction with one register field is well formed when that field is a valid index. -/
theorem Instr.wellFormed_of_regFields_one {i : Instr} {n : Nat} {v1 : RegIndex} (h : i.regFields = [v1]) :
    i.WellFormed n ↔ v1.toNat < n := by
  simp [Instr.WellFormed, h]

/-- R22: an instruction with two register fields is well formed when both are valid indices. -/
theorem Instr.wellFormed_of_regFields_two {i : Instr} {n : Nat} {v1 v2 : RegIndex} (h : i.regFields = [v1, v2]) :
    i.WellFormed n ↔ v1.toNat < n ∧ v2.toNat < n := by
  simp [Instr.WellFormed, h]

end Sys2Proof

namespace Sys2Proof.Machine

/-! ### A step at a legal opcode byte -/

/-- R71, R92: with fewer bytes left than the opcode's length, the step is a DecodeError. -/
theorem step_truncated {s : State} {o : Op} (hr : s.run = .running) (hb : s.prog.byteAt s.pc.toNat = some o.byte)
    (hlen : s.prog.len.toNat - s.pc.toNat < o.length) : step s = .next (s.raiseFault .decodeError) := by
  have hpc := Memory.lt_of_byteAt hb
  rw [step_decoded hr hpc, State.decoded_truncated hb (by omega)]

/-- R90: with all its bytes there, an instruction of the opcode's id stands at `PC`, and the step executes it. -/
theorem step_whole {s : State} {o : Op} (hr : s.run = .running) (hb : s.prog.byteAt s.pc.toNat = some o.byte)
    (hlen : o.length ≤ s.prog.len.toNat - s.pc.toNat) :
    ∃ i, i.op = o ∧ s.prog.window s.pc.toNat i.length = encode i ∧ step s = exec i s := by
  have hpc := Memory.lt_of_byteAt hb
  obtain ⟨i, hop, hdec⟩ := State.decoded_whole hb (by omega)
  exact ⟨i, hop, State.window_of_decoded hdec, step_instr hr hpc hdec⟩

/-- R71, R90: both cases at once, as each instruction's rule gives them; what follows from the whole instruction is left
to that rule. -/
theorem step_by_length {s : State} {o : Op} {Rule : Prop} (hr : s.run = .running)
    (hb : s.prog.byteAt s.pc.toNat = some o.byte)
    (hrule : ∀ i : Instr, i.op = o → s.prog.window s.pc.toNat i.length = encode i → step s = exec i s → Rule) :
    if s.prog.len.toNat - s.pc.toNat < o.length then step s = .next (s.raiseFault .decodeError) else Rule := by
  split
  next hlt => exact step_truncated hr hb hlt
  next hge =>
    obtain ⟨i, hop, hwin, hstep⟩ := step_whole hr hb (Nat.not_lt.1 hge)
    exact hrule i hop hwin hstep

/-- R94: an instruction with one register field leaves its arm's result or faults, as that field is in range or not. -/
theorem exec_by_range_one {i : Instr} {s : State} {v1 : RegIndex} (h : i.regFields = [v1]) :
    if v1.toNat < s.regCount then exec i s = .next (armResult i s)
    else exec i s = .next (s.raiseFault .registerOutOfRange) := by
  split
  next hin => exact exec_wellFormed ((Instr.wellFormed_of_regFields_one h).2 hin)
  next hout => exact exec_not_wellFormed (mt (Instr.wellFormed_of_regFields_one h).1 hout)

/-- R33: at creation every register reads 0. -/
@[simp] theorem State.created_readReg (n : Nat) (m : Memory) (r : RegIndex) : (State.created n m).readReg r = 0 := by
  simp only [State.readReg, State.created_regs, List.getD_eq_getElem?_getD, List.getElem?_replicate]
  split <;> rfl

/-! ### The statements -/

/-- Settles O27: by the bytes left and the range of both fields; with one register, what is written is what it holds. -/
theorem movCopiesRegister : Obligations.MovCopiesRegister := by
  refine fun s hr hb => step_by_length (o := .mov) hr hb fun
    | .mov v1 v2, rfl, hwin, hstep =>
      ⟨v1, v2, Memory.byteAt_of_window hwin rfl, Memory.byteAt_of_window hwin rfl, ?_⟩
  have hself : v1 = v2 → s.regs.set v1.toNat (s.readReg v2) = s.regs := by
    rintro rfl
    exact congrArg State.regs (s.writeReg_readReg_self v1)
  have hwf := Instr.wellFormed_of_regFields_two (n := s.regCount) (i := .mov v1 v2) rfl
  split
  next hin => exact ⟨hstep.trans (exec_wellFormed (hwf.2 hin)), hself⟩
  next hout => exact hstep.trans (exec_not_wellFormed (mt hwf.1 hout))

/-- Settles O28: by the bytes left and the range of `v1`; the immediate stands behind the register byte. -/
theorem moviLoadsRegister : Obligations.MoviLoadsRegister :=
  fun _ hr hb => step_by_length (o := .movi) hr hb fun
    | .movi v1 imm, rfl, hwin, hstep =>
      ⟨v1, imm, Memory.byteAt_of_window hwin rfl, Memory.readWord_of_window hwin rfl,
        hstep ▸ exec_by_range_one rfl⟩

/-- Settles O29: by the bytes left; with no register field the instruction is well formed. -/
theorem ldaiLoadsAccumulator : Obligations.LdaiLoadsAccumulator :=
  fun _ hr hb => step_by_length (o := .ldai) hr hb fun
    | .ldai imm, rfl, hwin, hstep =>
      ⟨imm, Memory.readWord_of_window hwin rfl, hstep.trans (exec_wellFormed (List.forall_mem_nil _))⟩

/-- Settles O30: by the bytes left and the range of `v1`; and a created register file holds only zeros. -/
theorem ldaCopiesToAccumulator : Obligations.LdaCopiesToAccumulator := by
  refine ⟨fun _ hr hb => step_by_length (o := .lda) hr hb fun
    | .lda v1, rfl, hwin, hstep => ⟨v1, Memory.byteAt_of_window hwin rfl, hstep ▸ exec_by_range_one rfl⟩, ?_⟩
  exact fun n m v1 _ => State.created_readReg n m v1

/-- Settles O31: by the bytes left and the range of `v1`. -/
theorem staCopiesFromAccumulator : Obligations.StaCopiesFromAccumulator :=
  fun _ hr hb => step_by_length (o := .sta) hr hb fun
    | .sta v1, rfl, hwin, hstep => ⟨v1, Memory.byteAt_of_window hwin rfl, hstep ▸ exec_by_range_one rfl⟩

end Sys2Proof.Machine
end

section
/-! SUPPORT. The proofs of the statements of spec/42_arithmetic.md: `add` and `dec` (R130, R131), with the values of the
two results as numbers. -/

namespace Sys2Proof.Machine

/-- R130: as a number, the sum is taken modulo 2^32. -/
theorem addResult_toNat (a b : Word) : (addResult a b).toNat = (a.toNat + b.toNat) % 2 ^ 32 := by
  rw [addResult_eq, BitVec.toNat_add]

/-- R131: as a number, the result is the word less one modulo 2^32, so 0 gives 2^32 - 1. -/
theorem decResult_toNat (a : Word) : ((decResult a).toNat : Int) = ((a.toNat : Int) - 1) % 2 ^ 32 := by
  rw [decResult_eq]
  bv_omega

/-- R94: `exec_by_range_one` with any consequence of the arm's result in the case of a field in range. -/
theorem exec_rule_by_range_one {i : Instr} {s : State} {v1 : RegIndex} {Rule : Prop} (h : i.regFields = [v1])
    (hrule : exec i s = .next (armResult i s) → Rule) :
    if v1.toNat < s.regCount then Rule else exec i s = .next (s.raiseFault .registerOutOfRange) := by
  have hexec := exec_by_range_one (s := s) h
  split at hexec
  next hin => exact (if_pos hin).mpr (hrule hexec)
  next hout => exact (if_neg hout).mpr hexec

/-! ### The statements -/

/-- Settles O32: by the bytes left and the range of `v1`; the sum is the arm's own. -/
theorem addWrapsIntoAccumulator : Obligations.AddWrapsIntoAccumulator :=
  fun s hr hb => step_by_length (o := .add) hr hb fun
    | .add v1, rfl, hwin, hstep =>
      ⟨v1, Memory.byteAt_of_window hwin rfl, hstep ▸ exec_rule_by_range_one rfl fun hexec =>
        ⟨addResult s.acc (s.readReg v1), addResult_toNat _ _, hexec⟩⟩

/-- Settles O33: by the bytes left and the range of `v1`; what is written back is the arm's own difference. -/
theorem decWrapsRegister : Obligations.DecWrapsRegister :=
  fun s hr hb => step_by_length (o := .dec) hr hb fun
    | .dec v1, rfl, hwin, hstep =>
      ⟨v1, Memory.byteAt_of_window hwin rfl, hstep ▸ exec_rule_by_range_one rfl fun hexec =>
        ⟨decResult (s.readReg v1), decResult_toNat _, hexec⟩⟩

end Sys2Proof.Machine
end

section
/-! SUPPORT. The proof of the statement of spec/44_output.md: `print` (R150), with the output event of a step that
appends to `OUT`. -/

namespace Sys2Proof.Machine

/-! ### The output event -/

/-- R100: the output event of a step is the first value it adds to `OUT`, if it adds one. -/
theorem State.outEvent_of_step {s t : State} (h : step s = .next t) :
    s.outEvent = (t.out.drop s.out.length).head? := by
  simp only [State.outEvent, h]

/-- R100: a step that appends one value to `OUT` has the output event with that value. -/
theorem State.outEvent_of_append {s t : State} {v : Word} (h : step s = .next t) (hout : t.out = s.out ++ [v]) :
    s.outEvent = some v := by
  rw [State.outEvent_of_step h, hout, List.drop_left, List.head?_cons]

/-! ### The step at `print` -/

/-- R150: the opcode byte is the whole instruction, and with no register field it is well formed. -/
theorem step_print {s : State} (hr : s.run = .running) (hb : s.prog.byteAt s.pc.toNat = some Op.print.byte) :
    step s = .next (armResult .print s) := by
  have hlen : Op.print.length ≤ s.prog.len.toNat - s.pc.toNat := Nat.sub_pos_of_lt (Memory.lt_of_byteAt hb)
  obtain ⟨i, hop, -, hstep⟩ := step_whole hr hb hlen
  cases i with
  | print => exact hstep.trans (exec_wellFormed (List.forall_mem_nil _))
  | mov | movi | ldai | lda | sta | add | dec | bne => cases hop

/-! ### The statement -/

/-- Settles O35: the step leaves the arm's result, which appends `ACC` to `OUT`, and that is its event. -/
theorem printEmitsAccumulator : Obligations.PrintEmitsAccumulator :=
  fun _ hr hb => ⟨step_print hr hb, State.outEvent_of_append (step_print hr hb) rfl⟩

end Sys2Proof.Machine
end

section
/-! SUPPORT. The proofs of the statements of spec/60_exceptions.md: what is no fault (R162), and that only a reset
resumes an ended machine (R163). -/

namespace Sys2Proof.Machine

/-- R90, R94: an instruction with its fields in range keeps a running machine running, for no execute arm writes
`RUN`. -/
theorem step_running_of_wellFormed {s : State} {i : Instr} (hr : s.run = .running)
    (hp : s.pc.toNat < s.prog.len.toNat) (hd : s.decoded = .instr i) (hw : i.WellFormed s.regCount) :
    ∃ t, step s = .next t ∧ t.run = .running :=
  ⟨armResult i s, step_wellFormed hr hp hd hw, (armResult_run i s).trans hr⟩

/-! ### The statements -/

/-- Settles O25: of the two events, a step leaves an ended machine as it is, and a reset gives the created machine. -/
theorem onlyResetLeavesTerminal : Obligations.OnlyResetLeavesTerminal := by
  refine ⟨fun s t e he hevent hne => ?_, fun s => ⟨s.applyReset, rfl, rfl⟩⟩
  cases e with
  | reset => rfl
  | step =>
    have hsame : t = s := step_ended he hevent
    exact absurd (congrArg State.run hsame) hne

/-- Settles O55: each of the three instructions is well formed, so its arm keeps `RUN`; the end of the program halts;
and a created register file holds only zeros. -/
theorem ordinaryOutcomesAreNoFaults : Obligations.OrdinaryOutcomesAreNoFaults := by
  refine ⟨fun s v1 v2 imm hr hp h1 h2 hd => ?_, fun s hr hend => ⟨s.halt, step_atEnd hr hend, rfl⟩,
    fun n m r _ => State.created_readReg n m r⟩
  obtain hadd | hdec | hbne := hd
  · exact step_running_of_wellFormed hr hp hadd ((Instr.wellFormed_of_regFields_one rfl).2 h1)
  · exact step_running_of_wellFormed hr hp hdec ((Instr.wellFormed_of_regFields_one rfl).2 h1)
  · exact step_running_of_wellFormed hr hp hbne ((Instr.wellFormed_of_regFields_two rfl).2 ⟨h1, h2⟩)

end Sys2Proof.Machine
end

section
/-! SUPPORT. The proofs of the round trip of spec/30_encoding.md (S-1), of its encoder on operand lists (R73) and of
the spelled words of spec/95_test_vectors.md: an instruction is its id, its register fields and its immediate, and
those fix its encoding. -/

namespace Sys2Proof

/-! ### An instruction and its operands -/

/-- R61, R73: an encoding is the opcode byte, the register fields and then the bytes of the immediate. -/
theorem encode_eq_operands (i : Instr) :
    encode i = i.op.byte :: i.regFields ++ (i.imm.map immBytes).getD [] := by
  cases i <;> rfl

/-- R72: an instruction has as many register fields as the table gives its id. -/
theorem Instr.regFields_length (i : Instr) : i.regFields.length = i.op.numRegFields := by
  cases i <;> rfl

/-- R72: an instruction has an immediate exactly when the table gives its id one. -/
theorem Instr.imm_isSome (i : Instr) : i.imm.isSome = i.op.hasImm := by
  cases i <;> rfl

/-- R61, R72: operands of the number and kind that the table gives an id are those of some instruction of that id. -/
theorem Instr.exists_of_operands {o : Op} {regs : List RegIndex} {imm : Option Word}
    (hregs : regs.length = o.numRegFields) (himm : imm.isSome = o.hasImm) :
    ∃ i : Instr, i.op = o ∧ i.regFields = regs ∧ i.imm = imm := by
  have hnone (h : imm.isSome = false) : none = imm :=
    (Option.isNone_iff_eq_none.1 (Option.isSome_eq_false_iff.1 h)).symm
  cases o with
  | mov =>
    obtain ⟨v1, v2, rfl⟩ := List.length_eq_two.1 hregs
    exact ⟨.mov v1 v2, rfl, rfl, hnone himm⟩
  | movi =>
    obtain ⟨v1, rfl⟩ := List.length_eq_one_iff.1 hregs
    obtain ⟨w, rfl⟩ := Option.isSome_iff_exists.1 himm
    exact ⟨.movi v1 w, rfl, rfl, rfl⟩
  | ldai =>
    obtain rfl := List.length_eq_zero_iff.1 hregs
    obtain ⟨w, rfl⟩ := Option.isSome_iff_exists.1 himm
    exact ⟨.ldai w, rfl, rfl, rfl⟩
  | lda =>
    obtain ⟨v1, rfl⟩ := List.length_eq_one_iff.1 hregs
    exact ⟨.lda v1, rfl, rfl, hnone himm⟩
  | sta =>
    obtain ⟨v1, rfl⟩ := List.length_eq_one_iff.1 hregs
    exact ⟨.sta v1, rfl, rfl, hnone himm⟩
  | add =>
    obtain ⟨v1, rfl⟩ := List.length_eq_one_iff.1 hregs
    exact ⟨.add v1, rfl, rfl, hnone himm⟩
  | dec =>
    obtain ⟨v1, rfl⟩ := List.length_eq_one_iff.1 hregs
    exact ⟨.dec v1, rfl, rfl, hnone himm⟩
  | bne =>
    obtain ⟨v1, v2, rfl⟩ := List.length_eq_two.1 hregs
    obtain ⟨w, rfl⟩ := Option.isSome_iff_exists.1 himm
    exact ⟨.bne v1 v2 w, rfl, rfl, rfl⟩
  | print =>
    obtain rfl := List.length_eq_zero_iff.1 hregs
    exact ⟨.print, rfl, rfl, hnone himm⟩

/-! ### Register operands as numbers -/

/-- R64: the numbers of register fields, written as bytes, are those fields. -/
theorem map_ofNat_map_toNat (regs : List RegIndex) : (regs.map BitVec.toNat).map (BitVec.ofNat 8) = regs := by
  have hback (r : RegIndex) (_ : r ∈ regs) : (BitVec.ofNat 8 ∘ BitVec.toNat) r = r :=
    (BitVec.ofNat_toNat 8 r).trans (BitVec.setWidth_eq r)
  rw [List.map_map, List.map_congr_left hback, List.map_id']

/-- R64, R73: numbers up to 255 keep their value when each is written as one byte. -/
theorem map_toNat_map_ofNat {regs : List Nat} (h : ∀ n ∈ regs, n ≤ 255) :
    (regs.map (BitVec.ofNat 8)).map BitVec.toNat = regs := by
  have hkeep (n : Nat) (hn : n ∈ regs) : (BitVec.toNat ∘ BitVec.ofNat 8) n = n :=
    Nat.mod_eq_of_lt (Nat.lt_succ_of_le (h n hn))
  rw [List.map_map, List.map_congr_left hkeep, List.map_id']

/-! ### The encoder on operand lists -/

/-- R73: an instruction's own operands encode to its encoding. -/
theorem encodeOperands_self (i : Instr) :
    encodeOperands i.op (i.regFields.map BitVec.toNat) i.imm = some (encode i) := by
  have hshape : (i.regFields.map BitVec.toNat).length = i.op.numRegFields ∧ i.imm.isSome = i.op.hasImm ∧
      ∀ n ∈ i.regFields.map BitVec.toNat, n ≤ 255 := by
    refine ⟨by rw [List.length_map, i.regFields_length], i.imm_isSome, fun n hn => ?_⟩
    obtain ⟨r, -, rfl⟩ := List.mem_map.1 hn
    exact Nat.le_of_lt_succ r.isLt
  rw [encodeOperands, if_pos hshape, map_ofNat_map_toNat, encode_eq_operands]

/-- R73: an operand list that encodes is that of an instruction, and encodes to its encoding. -/
theorem encodeOperands_eq_some {o : Op} {regs : List Nat} {imm : Option Word} {bytes : List Byte}
    (h : encodeOperands o regs imm = some bytes) :
    ∃ i : Instr, i.op = o ∧ i.regFields.map BitVec.toNat = regs ∧ i.imm = imm ∧ encode i = bytes := by
  obtain ⟨⟨hregs, himm, hbyte⟩, hbytes⟩ := Option.ite_none_right_eq_some.1 h
  obtain ⟨i, rfl, hfields, rfl⟩ :=
    Instr.exists_of_operands (regs := regs.map (BitVec.ofNat 8)) (by rw [List.length_map, hregs]) himm
  refine ⟨i, rfl, by rw [hfields, map_toNat_map_ofNat hbyte], rfl, ?_⟩
  rw [encode_eq_operands, hfields]
  exact Option.some.inj hbytes

/-- R73: a register operand above 255 is OperandRangeError. -/
theorem encodeOperands_eq_none {o : Op} {regs : List Nat} {imm : Option Word} (h : ∃ n ∈ regs, 255 < n) :
    encodeOperands o regs imm = none := by
  obtain ⟨n, hn, hlt⟩ := h
  exact if_neg fun ⟨_, _, hbyte⟩ => Nat.not_lt.2 (hbyte n hn) hlt

/-! ### The statements -/

/-- Settles O1: the bytes after the opcode byte hold the instruction's own fields. -/
theorem encodeThenDecode : Obligations.EncodeThenDecode :=
  decode_encode_append

/-- Settles O2: bytes that decode to an instruction begin with its encoding, which has its length. -/
theorem decodeThenEncode : Obligations.DecodeThenEncode := by
  intro bytes i h
  obtain ⟨more, rfl⟩ := decode_eq_instr h
  rw [List.length_append, encode_length, List.take_left' (encode_length i)]
  exact ⟨Nat.le_add_right _ _, rfl⟩

/-- Settles O5: what encodes is an instruction's operand list, and its encoding decodes to it. -/
theorem encoderOfOperandLists : Obligations.EncoderOfOperandLists := by
  refine ⟨fun v1 v2 imm => ?_, fun o regs imm bytes h => ?_, fun o regs imm => encodeOperands_eq_none⟩
  · exact ⟨encodeOperands_self (.mov v1 v2), encodeOperands_self (.movi v1 imm), encodeOperands_self (.ldai imm),
      encodeOperands_self (.lda v1), encodeOperands_self (.sta v1), encodeOperands_self (.add v1),
      encodeOperands_self (.dec v1), encodeOperands_self (.bne v1 v2 imm), encodeOperands_self .print⟩
  · obtain ⟨i, rfl, hregs, himm, rfl⟩ := encodeOperands_eq_some h
    exact ⟨encode_length i, i, decode_encode i, rfl, hregs, himm, rfl⟩

/-- Settles O10: each word by running the decoder on it. -/
theorem spelledWordsDecode : Obligations.SpelledWordsDecode := by
  unfold Obligations.SpelledWordsDecode
  decide

end Sys2Proof
end

section
/-! SUPPORT. The proofs of the statements about the parameters of a run (spec/10_state.md R31, and R180 in
spec/70_reset_and_hazards.md) and of the output along a run (spec/44_output.md), which rest on one account of all that a
step can do to the state. -/

namespace Sys2Proof.Machine

/-! ### Invariants of runs -/

/-- R183: what holds of a state and is kept by every step holds of every state it reaches. -/
theorem Reaches.invariant {P : State → Prop} {s t : State} (h : Reaches s t) (hstart : P s)
    (hstep : ∀ u v, P u → step u = .next v → P v) : P t := by
  induction h with
  | start => exact hstart
  | more _ hnext ih => exact hstep _ _ ih hnext

/-- R90: a step changes RUN alone, if anything, or is the arm of a well-formed instruction at `PC`. -/
theorem step_run_or_arm {s t : State} (h : step s = .next t) :
    (∃ r, t = { s with run := r }) ∨
      (s.run = .running ∧ s.pc.toNat < s.prog.len.toNat ∧
        ∃ i, s.decoded = .instr i ∧ i.WellFormed s.regCount ∧ t = armResult i s) := by
  obtain ⟨-, rfl⟩ | ⟨-, -, rfl⟩ | ⟨hr, hp, ⟨-, rfl⟩ | ⟨-, rfl⟩ | ⟨i, hd, ⟨hw, rfl⟩ | ⟨-, rfl⟩⟩⟩ := step_cases h
  · exact .inl ⟨_, rfl⟩
  · exact .inl ⟨_, rfl⟩
  · exact .inl ⟨_, rfl⟩
  · exact .inl ⟨_, rfl⟩
  · exact .inr ⟨hr, hp, i, hd, hw, rfl⟩
  · exact .inl ⟨_, rfl⟩

/-! ### The parameters of a run -/

/-- R31: a step changes neither the program nor the register count. -/
theorem step_parameters {s t : State} (h : step s = .next t) : t.prog = s.prog ∧ t.regCount = s.regCount := by
  obtain ⟨r, rfl⟩ | ⟨-, -, i, -, -, rfl⟩ := step_run_or_arm h
  · exact ⟨rfl, rfl⟩
  · exact ⟨armResult_prog i s, armResult_regCount i s⟩

/-- R180: a reset keeps them too. -/
theorem onEvent_parameters {s t : State} {e : HostEvent} (h : onEvent s e = .next t) :
    t.prog = s.prog ∧ t.regCount = s.regCount := by
  cases e with
  | reset =>
    cases h
    exact ⟨rfl, State.created_regCount _ _⟩
  | step => exact step_parameters h

/-- R6: whether a machine is one a host may set up depends on the run's parameters alone. -/
theorem State.Configured.of_parameters {s t : State} (hs : s.Configured)
    (h : t.prog = s.prog ∧ t.regCount = s.regCount) : t.Configured := by
  rw [State.Configured, h.1, h.2]
  exact hs

/-! ### The output -/

/-- R30: `print` appends `ACC` to the output, and no other execute arm writes it. -/
theorem armResult_out (i : Instr) (s : State) :
    (armResult i s).out = if i = .print then s.out ++ [s.acc] else s.out := by
  cases i with
  | mov | movi | ldai | lda | sta | add | dec | print => rfl
  | bne =>
    simp only [armResult]
    split <;> rfl

/-- R30: a step keeps what has been printed as an initial part of the output. -/
theorem step_out_grows {s t : State} (h : step s = .next t) : s.out <+: t.out := by
  obtain ⟨r, rfl⟩ | ⟨-, -, i, -, -, rfl⟩ := step_run_or_arm h
  · exact List.prefix_rfl
  · rw [armResult_out]
    split
    · exact List.prefix_append _ _
    · exact List.prefix_rfl

/-! ### The statements -/

/-- Settles O43: an invariant of the run, since every step keeps both parameters. -/
theorem runParametersNeverChange : Obligations.RunParametersNeverChange := by
  refine fun s t h => h.invariant (P := fun u => u.prog = s.prog ∧ u.regCount = s.regCount) ⟨rfl, rfl⟩ ?_
  rintro u v ⟨hprog, hcount⟩ hnext
  obtain ⟨hprog', hcount'⟩ := step_parameters hnext
  exact ⟨hprog'.trans hprog, hcount'.trans hcount⟩

/-- Settles O44: both events keep the parameters, and being configured is a property of those. -/
theorem eventsKeepConfigured : Obligations.EventsKeepConfigured :=
  fun _ _ _ hs h => hs.of_parameters (onEvent_parameters h)

/-- Settles O52: an invariant of the run, since every step only appends. -/
theorem outputOnlyGrows : Obligations.OutputOnlyGrows :=
  fun s _ h => h.invariant (P := fun u => s.out <+: u.out) List.prefix_rfl
    fun _ _ hu hnext => hu.trans (step_out_grows hnext)

end Sys2Proof.Machine
end

section
/-! SUPPORT. The proofs of the statements about one step of spec/40_sequencer.md (R90 to R95): what runs at `PC`, the
order of the phases, the end of the program, and the causes and the effect of the three faults. -/

namespace Sys2Proof

/-- R67: the opcode byte of an id is none above 0x08. -/
theorem Op.byte_le (o : Op) : ¬ 8 < o.byte.toNat := by
  rw [← Op.ofByte_eq_none, Op.ofByte_byte]
  exact Option.some_ne_none o

/-- R94: an instruction with a register field is neither `ldai` nor `print`. -/
theorem Instr.op_ne_of_mem_regFields {i : Instr} {r : RegIndex} (h : r ∈ i.regFields) :
    i.op ≠ .ldai ∧ i.op ≠ .print := by
  cases i with
  | ldai | print => cases h
  | mov | movi | lda | sta | add | dec | bne => exact ⟨nofun, nofun⟩

end Sys2Proof

namespace Sys2Proof.Machine

/-! ### An encoding at `PC` -/

/-- R44: bytes that stand in the program one by one are the program's window there. -/
theorem Memory.window_of_byteAt {m : Memory} {a : Nat} {bytes : List Byte}
    (h : ∀ k, k < bytes.length → m.byteAt (a + k) = bytes[k]?) : m.window a bytes.length = bytes := by
  refine List.ext_getElem? fun k => ?_
  rcases Nat.lt_or_ge k bytes.length with hk | hk
  · rw [Memory.window_getElem _ _ _ _ hk, h k hk]
  · have hlen : (m.window a bytes.length).length ≤ k := by
      rw [Memory.window_length]
      omega
    rw [List.getElem?_eq_none hk, List.getElem?_eq_none hlen]

/-- R61: where an encoding stands in the program, its first byte is the opcode byte of its id. -/
theorem Memory.byteAt_of_encoding {m : Memory} {a : Nat} {i : Instr}
    (h : ∀ k, k < i.length → m.byteAt (a + k) = (encode i)[k]?) : m.byteAt a = some i.op.byte := by
  rw [← encode_head? i, List.head?_eq_getElem?]
  exact h 0 i.op.length_bounds.1

/-- R70: an instruction whose encoding stands at `PC` is what the decoder reads. -/
theorem State.decoded_of_encoding {s : State} {i : Instr}
    (h : ∀ k, k < i.length → s.prog.byteAt (s.pc.toNat + k) = (encode i)[k]?) : s.decoded = .instr i := by
  have hwin : s.prog.window s.pc.toNat i.length = encode i := by
    rw [← encode_length i] at h ⊢
    exact Memory.window_of_byteAt h
  rw [State.decoded, State.fetchBytes_op (Memory.byteAt_of_encoding h)]
  exact hwin ▸ decode_encode i

/-- R90: an instruction whose encoding stands at `PC` runs. -/
theorem step_of_encoding {s : State} {i : Instr} (hr : s.run = .running)
    (h : ∀ k, k < i.length → s.prog.byteAt (s.pc.toNat + k) = (encode i)[k]?) : step s = exec i s :=
  step_instr hr (Memory.lt_of_byteAt (Memory.byteAt_of_encoding h)) (State.decoded_of_encoding h)

/-- R68, R92: an opcode byte above 0x08 at `PC`. -/
theorem step_unknown {s : State} {b : Byte} (hr : s.run = .running) (hb : s.prog.byteAt s.pc.toNat = some b)
    (h8 : 8 < b.toNat) : step s = .next (s.raiseFault .unknownOpcode) := by
  rw [step_decoded hr (Memory.lt_of_byteAt hb), State.decoded_unknown hb h8]

/-! ### What stands at `PC` -/

/-- R68: below `L` there is an opcode byte at `PC`, either one above 0x08 or that of an id. -/
theorem State.opcode_cases {s : State} (hp : s.pc.toNat < s.prog.len.toNat) :
    (∃ b, s.prog.byteAt s.pc.toNat = some b ∧ 8 < b.toNat) ∨ ∃ o : Op, s.prog.byteAt s.pc.toNat = some o.byte := by
  obtain ⟨b, hb⟩ := Option.isSome_iff_exists.1 ((s.prog.byteAt_isSome _).2 hp)
  cases ho : Op.ofByte b with
  | none => exact .inl ⟨b, hb, Op.ofByte_eq_none.1 ho⟩
  | some o => exact .inr ⟨o, by rw [hb, Op.byte_of_ofByte ho]⟩

/-- R70, R90 phase 2: below `L`, the three answers of the decoder, each with what stands at `PC`. -/
theorem State.decoded_cases {s : State} (hp : s.pc.toNat < s.prog.len.toNat) :
    ((∃ b, s.prog.byteAt s.pc.toNat = some b ∧ 8 < b.toNat) ∧ s.decoded = .unknownOpcode) ∨
    ((∃ o : Op, s.prog.byteAt s.pc.toNat = some o.byte ∧ s.prog.len.toNat - s.pc.toNat < o.length) ∧
      s.decoded = .truncated) ∨
    ∃ i, s.decoded = .instr i := by
  obtain ⟨b, hb, h8⟩ | ⟨o, hb⟩ := State.opcode_cases hp
  · exact .inl ⟨⟨b, hb, h8⟩, State.decoded_unknown hb h8⟩
  · rcases Nat.lt_or_ge (s.prog.len.toNat - s.pc.toNat) o.length with hlen | hlen
    · exact .inr (.inl ⟨⟨o, hb, hlen⟩, State.decoded_truncated hb (by omega)⟩)
    · obtain ⟨i, -, hi⟩ := State.decoded_whole hb (by omega)
      exact .inr (.inr ⟨i, hi⟩)

/-- R68, R70: the decoder answers UnknownOpcode, below `L`, exactly at an opcode byte above 0x08. -/
theorem State.decoded_unknown_iff {s : State} :
    (s.pc.toNat < s.prog.len.toNat ∧ s.decoded = .unknownOpcode) ↔
      ∃ b, s.prog.byteAt s.pc.toNat = some b ∧ 8 < b.toNat := by
  constructor
  · rintro ⟨hp, hd⟩
    obtain ⟨hcause, -⟩ | ⟨-, hd'⟩ | ⟨i, hd'⟩ := State.decoded_cases hp
    · exact hcause
    · cases hd.symm.trans hd'
    · cases hd.symm.trans hd'
  · rintro ⟨b, hb, h8⟩
    exact ⟨Memory.lt_of_byteAt hb, State.decoded_unknown hb h8⟩

/-- R70, R71: the decoder answers DecodeError, below `L`, exactly at a legal opcode byte with too few bytes left. -/
theorem State.decoded_truncated_iff {s : State} :
    (s.pc.toNat < s.prog.len.toNat ∧ s.decoded = .truncated) ↔
      ∃ o : Op, s.prog.byteAt s.pc.toNat = some o.byte ∧ s.prog.len.toNat - s.pc.toNat < o.length := by
  constructor
  · rintro ⟨hp, hd⟩
    obtain ⟨-, hd'⟩ | ⟨hcause, -⟩ | ⟨i, hd'⟩ := State.decoded_cases hp
    · cases hd.symm.trans hd'
    · exact hcause
    · cases hd.symm.trans hd'
  · rintro ⟨o, hb, hlen⟩
    exact ⟨Memory.lt_of_byteAt hb, State.decoded_truncated hb (by omega)⟩

/-- R71: `print` is its opcode byte alone, so it cannot be truncated. -/
theorem ne_print_of_truncated {s : State} {o : Op} (hb : s.prog.byteAt s.pc.toNat = some o.byte)
    (hlen : s.prog.len.toNat - s.pc.toNat < o.length) : o ≠ .print := by
  have hpc := Memory.lt_of_byteAt hb
  rintro rfl
  rw [Op.length_print] at hlen
  omega

/-! ### RUN after a step -/

/-- R90, R91, R92, R94: where the step of a running machine leaves RUN, by the phase that decides. -/
theorem step_run_iff {s t : State} (hr : s.run = .running) (h : step s = .next t) :
    (t.run = .halted ↔ s.prog.len.toNat ≤ s.pc.toNat) ∧
    (t.run = .faulted .unknownOpcode ↔ s.pc.toNat < s.prog.len.toNat ∧ s.decoded = .unknownOpcode) ∧
    (t.run = .faulted .decodeError ↔ s.pc.toNat < s.prog.len.toNat ∧ s.decoded = .truncated) ∧
    (t.run = .faulted .registerOutOfRange ↔
      s.pc.toNat < s.prog.len.toNat ∧ ∃ i, s.decoded = .instr i ∧ ¬ i.WellFormed s.regCount) := by
  obtain ⟨he, -⟩ | ⟨-, hend, rfl⟩ | ⟨-, hp, ⟨hd, rfl⟩ | ⟨hd, rfl⟩ | ⟨i, hd, ⟨hw, rfl⟩ | ⟨hw, rfl⟩⟩⟩ := step_cases h
  · exact absurd hr he
  · simp [hend, Nat.not_lt.2 hend]
  · simp [hd, hp, Nat.not_le.2 hp]
  · simp [hd, hp, Nat.not_le.2 hp]
  · simpa [hd, hp, Nat.not_le.2 hp, hr] using hw
  · simpa [hd, hp, Nat.not_le.2 hp] using hw

/-- R91, R161: a step that ends the run changes RUN and nothing else. -/
theorem step_eq_of_ends {s t : State} {r : RunState} (hr : s.run = .running) (h : step s = .next t) (ht : t.run = r)
    (hend : r ≠ .running) : t = { s with run := r } := by
  subst ht
  obtain ⟨r, rfl⟩ | ⟨-, -, i, -, -, rfl⟩ := step_run_or_arm h
  · rfl
  · exact absurd ((armResult_run i s).trans hr) hend

/-! ### A placed word -/

/-- R181: bytes supplied in a row inside the program are read back at their addresses; every other byte is as it was. -/
theorem Memory.byteAt_supplyAll {m : Memory} (hw : m.wf = true) {a : Nat} {bytes : List Byte}
    (hend : a + bytes.length ≤ m.len.toNat) (x : Nat) :
    (m.supplyAll a bytes).byteAt x =
      if a ≤ x ∧ x < a + bytes.length then bytes[x - a]? else m.byteAt x := by
  induction bytes generalizing m a with
  | nil =>
    have hout : ¬ (a ≤ x ∧ x < a + ([] : List Byte).length) := by
      rw [List.length_nil]
      omega
    rw [if_neg hout, Memory.supplyAll]
  | cons b rest ih =>
    rw [List.length_cons] at hend ⊢
    rw [Memory.supplyAll, ih (Memory.supply_wf hw a b) (by rw [Memory.supply_len]; omega),
      Memory.byteAt_supply hw (by omega)]
    rcases Nat.lt_trichotomy x a with hx | rfl | hx
    · rw [if_neg (by omega), if_neg (by omega), if_neg (by omega)]
    · rw [if_neg (by omega), if_pos rfl, if_pos (by omega), Nat.sub_self, List.getElem?_cons_zero]
    · rw [if_neg (Nat.ne_of_gt hx)]
      refine ite_congr (propext (by omega)) (fun _ => ?_) fun _ => rfl
      rw [show x - a = x - (a + 1) + 1 by omega, List.getElem?_cons_succ]

/-- R63: an opcode-table word is written out to the length of the longest instruction. -/
theorem bytesOfNat_length (n w : Nat) : (bytesOfNat n w).length = n := by
  induction n generalizing w with
  | zero => rfl
  | succ n ih => rw [bytesOfNat, List.length_cons, ih]

/-- R181: the program after a word is placed at `PC`. -/
theorem State.withFetchWord_prog (s : State) (nbits w : Nat) :
    (s.withFetchWord nbits w).prog =
      (s.prog.extendTo (s.pc.toNat + maxInstrLength)).supplyAll s.pc.toNat (tableBytes nbits w) := by
  rw [State.withFetchWord]

/-- R181: a placed word's bytes stand in the program from `PC` on. -/
theorem State.byteAt_withFetchWord {s : State} (hwf : s.prog.wf = true)
    (hroom : s.pc.toNat + maxInstrLength ≤ Config.maxProgramLength) (nbits w : Nat) {k : Nat}
    (hk : k < maxInstrLength) :
    (s.withFetchWord nbits w).prog.byteAt (s.pc.toNat + k) = (tableBytes nbits w)[k]? := by
  have hlen : (tableBytes nbits w).length = maxInstrLength := bytesOfNat_length maxInstrLength _
  have hend : s.pc.toNat + (tableBytes nbits w).length ≤
      (s.prog.extendTo (s.pc.toNat + maxInstrLength)).len.toNat := by
    rw [Memory.extendTo_len hroom, hlen]
    exact Nat.le_max_right _ _
  have hin : s.pc.toNat ≤ s.pc.toNat + k ∧ s.pc.toNat + k < s.pc.toNat + (tableBytes nbits w).length := by omega
  rw [State.withFetchWord_prog, Memory.byteAt_supplyAll (Memory.extendTo_wf hwf _) hend, if_pos hin,
    Nat.add_sub_cancel_left]

/-- R73: a word that decodes to an instruction begins with its encoding. -/
theorem tableBytes_getElem? {nbits w k : Nat} {i : Instr} (h : decodeTableWord nbits w = some i)
    (hk : k < i.length) : (tableBytes nbits w)[k]? = (encode i)[k]? := by
  have hdec : decode (tableBytes nbits w) = .instr i := by
    unfold decodeTableWord at h
    split at h
    next hj => rw [hj, Option.some.inj h]
    all_goals cases h
  obtain ⟨more, hbytes⟩ := decode_eq_instr hdec
  rw [hbytes, List.getElem?_append_left (by rw [encode_length]; exact hk)]

/-! ### The statements -/

/-- Settles O11: the end of the program and the decoder's two errors are ruled out, and nothing else stands before
`exec`. -/
theorem stepRunsDecodedInstruction : Obligations.StepRunsDecodedInstruction :=
  fun _ _ => step_instr

/-- Settles O12: the decoder reads the instruction from its encoding. -/
theorem encodedInstructionAtPcRuns : Obligations.EncodedInstructionAtPcRuns :=
  fun _ _ => step_of_encoding

/-- Settles O13: the placed bytes begin with the instruction's encoding, which then stands at `PC`. -/
theorem placedTableWordRuns : Obligations.PlacedTableWordRuns := by
  refine fun s nbits w i hwf hroom hi => step_of_encoding rfl fun k hk => ?_
  have hmax : k < maxInstrLength := Nat.lt_of_lt_of_le hk i.op.length_bounds.2
  exact (State.byteAt_withFetchWord hwf hroom nbits w hmax).trans (tableBytes_getElem? hi hk)

/-- Settles O14: phase by phase, each with the lemma about it. -/
theorem stepPhasesInOrder : Obligations.StepPhasesInOrder := by
  intro s hr
  split
  next hend => exact step_atEnd hr hend
  next hp =>
    obtain ⟨b, hb, h8⟩ | ⟨o, hb⟩ := State.opcode_cases (Nat.not_le.1 hp)
    · refine ⟨b, hb, ?_⟩
      rw [if_pos h8]
      exact step_unknown hr hb h8
    · refine ⟨o.byte, hb, ?_⟩
      rw [if_neg o.byte_le]
      refine ⟨o, rfl, ?_⟩
      split
      next hlen => exact step_truncated hr hb hlen
      next hlen =>
        obtain ⟨i, hop, hd⟩ := State.decoded_whole hb (by omega)
        have hstep := step_instr hr (Nat.not_le.1 hp) hd
        refine ⟨i, hop, hd, ?_⟩
        split
        next hout => exact hstep.trans (exec_not_wellFormed (Instr.not_wellFormed_iff.2 hout))
        next hin =>
          have hexec := exec_wellFormed (Decidable.not_not.1 (mt Instr.not_wellFormed_iff.1 hin))
          exact ⟨_, hstep.trans hexec, hexec, (armResult_run i s).trans hr⟩

/-- Settles O15: of the phases only the end of the program halts, and it ends the run. -/
theorem haltsExactlyAtEndOfProgram : Obligations.HaltsExactlyAtEndOfProgram := by
  intro s t hr h
  obtain ⟨hhalted, -⟩ := step_run_iff hr h
  exact ⟨hhalted, fun ht => step_eq_of_ends hr h ht nofun⟩

/-- Settles O16: a step that ends the run changes RUN alone. -/
theorem faultsArePrecise : Obligations.FaultsArePrecise :=
  fun _ _ _ hr h ht => step_eq_of_ends hr h ht nofun

/-- Settles O17: the phase that raises each fault, and what stands at `PC` in that phase. -/
theorem faultCauses : Obligations.FaultCauses := by
  refine ⟨fun s t hr h => ?_, rfl, rfl, rfl⟩
  obtain ⟨-, hunknown, htruncated, hrange⟩ := step_run_iff hr h
  refine ⟨hunknown.trans State.decoded_unknown_iff, htruncated.trans (State.decoded_truncated_iff.trans ?_),
    hrange.trans ?_⟩
  · exact exists_congr fun o =>
      ⟨fun ⟨hb, hlen⟩ => ⟨hb, ne_print_of_truncated hb hlen, hlen⟩, fun ⟨hb, _, hlen⟩ => ⟨hb, hlen⟩⟩
  · constructor
    · rintro ⟨hp, i, hd, hw⟩
      obtain ⟨r, hr, hout⟩ := Instr.not_wellFormed_iff.1 hw
      obtain ⟨hldai, hprint⟩ := Instr.op_ne_of_mem_regFields hr
      exact ⟨i, hp, hd, hldai, hprint, r, hr, hout⟩
    · rintro ⟨i, hp, hd, -, -, hout⟩
      exact ⟨hp, i, hd, Instr.not_wellFormed_iff.2 hout⟩

/-- Settles O19: the range check fails, whatever the instruction; the fields are those of its term. -/
theorem outOfRangeFieldChangesOnlyRun : Obligations.OutOfRangeFieldChangesOnlyRun :=
  ⟨fun _ _ _ hout => exec_not_wellFormed (Instr.not_wellFormed_iff.2 hout),
    fun _ _ _ => ⟨rfl, rfl, rfl, rfl, rfl, rfl, rfl, rfl, rfl⟩⟩

/-- Settles O20: the range check passes the arm's result on, and no arm writes RUN. -/
theorem executeArmsNeverFault : Obligations.ExecuteArmsNeverFault :=
  fun s i hr hw => ⟨armResult i s, exec_wellFormed hw, (armResult_run i s).trans hr⟩

end Sys2Proof.Machine
end

section
/-! SUPPORT. The proofs of the statements about the instructions as execute arms: `bne` (spec/43_control.md),
completion, what each leaves unchanged, and the operand directions (spec/10_state.md R25). -/

namespace Sys2Proof.Machine

/-! ### The arm of `bne` -/

/-- R140: the arm of `bne` changes `PC` alone, by whether the registers are equal. -/
theorem armResult_bne (v1 v2 : RegIndex) (imm : Word) (s : State) :
    armResult (.bne v1 v2 imm) s =
      { s with pc := if s.readReg v1 = s.readReg v2 then imm else s.pc + 7 } := by
  simp only [armResult, wordsEqual_iff]
  split <;> rfl

/-- R140: a `bne` with equal registers goes to its target. -/
theorem armResult_bne_taken {v1 v2 : RegIndex} {s : State} (imm : Word) (h : s.readReg v1 = s.readReg v2) :
    armResult (.bne v1 v2 imm) s = { s with pc := imm } := by
  rw [armResult_bne, if_pos h]

/-! ### Register operands -/

/-- R25: a register that is no written operand is none of the operands with a writing direction. -/
theorem ne_of_not_writesReg {i : Instr} {r v : RegIndex} {d : Direction} (hmem : (d, v) ∈ regOperands i)
    (hd : d.writes = true) (h : writesReg i r = false) : r ≠ v := by
  rintro rfl
  exact List.any_eq_false.1 h (d, r) hmem (by simp [hd])

/-- R25: a register that is no read operand is none of the operands with a reading direction. -/
theorem ne_of_not_readsReg {i : Instr} {r v : RegIndex} {d : Direction} (hmem : (d, v) ∈ regOperands i)
    (hd : d.reads = true) (h : readsReg i r = false) : r ≠ v := by
  rintro rfl
  exact List.any_eq_false.1 h (d, r) hmem (by simp [hd])

/-- R25: `mov`, `movi`, `sta` and `dec` write their first operand alone. -/
@[simp] theorem writesReg_mov (v1 v2 r : RegIndex) : writesReg (.mov v1 v2) r = decide (v1 = r) := by
  simp [writesReg, regOperands, Direction.writes]
@[simp] theorem writesReg_movi (v1 : RegIndex) (imm : Word) (r : RegIndex) :
    writesReg (.movi v1 imm) r = decide (v1 = r) := by
  simp [writesReg, regOperands, Direction.writes]
@[simp] theorem writesReg_sta (v1 r : RegIndex) : writesReg (.sta v1) r = decide (v1 = r) := by
  simp [writesReg, regOperands, Direction.writes]
@[simp] theorem writesReg_dec (v1 r : RegIndex) : writesReg (.dec v1) r = decide (v1 = r) := by
  simp [writesReg, regOperands, Direction.writes]

/-! ### Two register writes in a row -/

/-- R8: of two writes to one register the second stands, and writes to two registers commute. -/
theorem State.writeReg_writeReg (s : State) (r q : RegIndex) (v w : Word) :
    (s.writeReg r v).writeReg q w =
      if decide (q = r) then s.writeReg q w else (s.writeReg q w).writeReg r v := by
  by_cases h : q = r
  · subst h
    simp only [State.writeReg, List.set_set, decide_true, if_true]
  · have hne : r.toNat ≠ q.toNat := fun e => h (BitVec.eq_of_toNat_eq e.symm)
    simp only [State.writeReg, List.set_comm _ _ hne, h, decide_false, Bool.false_eq_true, if_false]

/-! ### What the arms do with registers that are no operands -/

/-- R25: an execute arm leaves a register that is no written operand. -/
theorem armResult_readReg_of_not_writes {i : Instr} {r : RegIndex} (h : writesReg i r = false) (s : State) :
    (armResult i s).readReg r = s.readReg r := by
  cases i with
  | mov v1 | movi v1 | sta v1 | dec v1 =>
    exact State.readReg_writeReg_other s v1 r _ (ne_of_not_writesReg List.mem_cons_self rfl h)
  | ldai | lda | add | print => rfl
  | bne =>
    rw [armResult_bne]
    rfl

/-- R25: an execute arm does the same whatever a register holds that is no read operand: that register keeps what it
holds, unless the arm writes it. -/
theorem armResult_writeReg_of_not_reads {i : Instr} {r : RegIndex} (h : readsReg i r = false) (s : State) (v : Word) :
    armResult i (s.writeReg r v) = if writesReg i r then armResult i s else (armResult i s).writeReg r v := by
  have hread {d : Direction} {v1 : RegIndex} (hmem : (d, v1) ∈ regOperands i) (hd : d.reads = true) :
      (s.writeReg r v).readReg v1 = s.readReg v1 :=
    State.readReg_writeReg_other s r v1 v (ne_of_not_readsReg hmem hd h).symm
  cases i with
  | mov v1 v2 =>
    simp only [armResult, hread (List.mem_cons_of_mem _ List.mem_cons_self) rfl, writesReg_mov]
    rw [State.writeReg_writeReg]
    split <;> rfl
  | movi | sta =>
    simp only [armResult, State.writeReg_acc, writesReg_movi, writesReg_sta]
    rw [State.writeReg_writeReg]
    split <;> rfl
  | dec =>
    simp only [armResult, hread List.mem_cons_self rfl, writesReg_dec]
    rw [State.writeReg_writeReg]
    split <;> rfl
  | ldai | print => rfl
  | lda | add =>
    simp only [armResult, hread List.mem_cons_self rfl]
    rfl
  | bne =>
    simp only [armResult_bne, hread List.mem_cons_self rfl, hread (List.mem_cons_of_mem _ List.mem_cons_self) rfl]
    rfl

/-! ### The frame of `exec` -/

/-- R94, R95: an instruction leaves RUN, unless the range check fails. -/
theorem exec_run {i : Instr} {s t : State} (h : exec i s = .next t) :
    t.run = s.run ∨ t.run = .faulted .registerOutOfRange := by
  obtain ⟨-, rfl⟩ | ⟨-, rfl⟩ := exec_cases h
  · exact .inl (armResult_run i s)
  · exact .inr rfl

/-- R31: an instruction leaves the register count. -/
theorem exec_regCount {i : Instr} {s t : State} (h : exec i s = .next t) : t.regCount = s.regCount := by
  obtain ⟨-, rfl⟩ | ⟨-, rfl⟩ := exec_cases h
  · exact armResult_regCount i s
  · rfl

/-- R30: every instruction but `print` leaves the output. -/
theorem exec_out_of_ne_print {i : Instr} {s t : State} (h : exec i s = .next t) (hi : i ≠ .print) : t.out = s.out := by
  obtain ⟨-, rfl⟩ | ⟨-, rfl⟩ := exec_cases h
  · rw [armResult_out, if_neg hi]
  · rfl

/-- R25: an instruction leaves a register that is no written operand. -/
theorem exec_readReg_of_not_writes {i : Instr} {s t : State} {r : RegIndex} (h : exec i s = .next t)
    (hr : writesReg i r = false) : t.readReg r = s.readReg r := by
  obtain ⟨-, rfl⟩ | ⟨-, rfl⟩ := exec_cases h
  · exact armResult_readReg_of_not_writes hr s
  · rfl

/-- R31, R41, R94: what every instruction leaves: the register count, the program, and RUN unless the range check
fails. -/
theorem exec_frame {i : Instr} {s t : State} (h : exec i s = .next t) :
    t.regCount = s.regCount ∧ t.prog.len = s.prog.len ∧ (∀ a, t.prog.byteAt a = s.prog.byteAt a) ∧
      (t.run = s.run ∨ t.run = .faulted .registerOutOfRange) :=
  ⟨exec_regCount h, by rw [exec_prog h], fun a => by rw [exec_prog h], exec_run h⟩

/-! ### The statements -/

/-- Settles O34: by the bytes left and the range of both fields; a register is equal to itself. -/
theorem bneBranchesOnEqual : Obligations.BneBranchesOnEqual := by
  refine fun s hr hb => step_by_length (o := .bne) hr hb fun
    | .bne v1 v2 imm, rfl, hwin, hstep =>
      ⟨v1, v2, imm, Memory.byteAt_of_window hwin rfl, Memory.byteAt_of_window hwin rfl,
        Memory.readWord_of_window hwin rfl, ?_⟩
  have hwf := Instr.wellFormed_of_regFields_two (n := s.regCount) (i := .bne v1 v2 imm) rfl
  split
  next hin =>
    have harm := hstep.trans (exec_wellFormed (hwf.2 hin))
    refine ⟨by rw [harm, armResult_bne], ?_⟩
    rintro rfl
    rw [harm, armResult_bne_taken imm rfl]
  next hout => exact hstep.trans (exec_not_wellFormed (mt hwf.1 hout))

/-- Settles O36: each arm's result, with the difference of `dec` as the word less one. -/
theorem registerWritersComplete : Obligations.RegisterWritersComplete := by
  intro s v1 v2 imm _ h1
  have hone {i : Instr} (hi : i.regFields = [v1]) : exec i s = .next (armResult i s) :=
    exec_wellFormed ((Instr.wellFormed_of_regFields_one hi).2 h1)
  refine ⟨fun h2 => exec_wellFormed ((Instr.wellFormed_of_regFields_two rfl).2 ⟨h1, h2⟩), hone rfl, hone rfl, ?_⟩
  rw [← decResult_eq]
  exact hone rfl

/-- Settles O37: each arm's result, with the sum of `add` as the word sum. -/
theorem accumulatorWritersComplete : Obligations.AccumulatorWritersComplete := by
  refine fun s v1 imm _ => ⟨exec_wellFormed (List.forall_mem_nil _), fun h1 => ?_⟩
  have hone {i : Instr} (hi : i.regFields = [v1]) : exec i s = .next (armResult i s) :=
    exec_wellFormed ((Instr.wellFormed_of_regFields_one hi).2 h1)
  rw [← addResult_eq]
  exact ⟨hone rfl, hone rfl⟩

/-- Settles O38: both results of the arm of `bne`, and the arm of `print`. -/
theorem branchAndPrintComplete : Obligations.BranchAndPrintComplete := by
  refine fun s v1 v2 imm _ => ⟨fun h1 h2 => ?_, exec_wellFormed (List.forall_mem_nil _)⟩
  have hbne : exec (.bne v1 v2 imm) s = .next (armResult (.bne v1 v2 imm) s) :=
    exec_wellFormed ((Instr.wellFormed_of_regFields_two rfl).2 ⟨h1, h2⟩)
  rw [hbne, armResult_bne]
  exact ⟨fun heq => by rw [if_pos heq], fun hne => by rw [if_neg hne]⟩

/-- Settles O39: none of the four writes a register but `v1`, the accumulator or the output. -/
theorem registerWritersFrame : Obligations.RegisterWritersFrame := by
  intro s t v1 v2 imm h
  obtain ⟨i, hi, hwrites, hacc, hprint⟩ : ∃ i, exec i s = .next t ∧ (∀ r, writesReg i r = decide (v1 = r)) ∧
      (accMode i.op).writes = false ∧ i ≠ .print := by
    obtain h | h | h | h := h
    · exact ⟨_, h, writesReg_mov v1 v2, rfl, nofun⟩
    · exact ⟨_, h, writesReg_movi v1 imm, rfl, nofun⟩
    · exact ⟨_, h, writesReg_sta v1, rfl, nofun⟩
    · exact ⟨_, h, writesReg_dec v1, rfl, nofun⟩
  obtain ⟨hcount, hprog⟩ := exec_frame hi
  refine ⟨fun r hr => exec_readReg_of_not_writes hi ?_, hcount, exec_acc_of_not_writes hi hacc,
    exec_out_of_ne_print hi hprint, hprog⟩
  rw [hwrites, decide_eq_false hr.symm]

/-- Settles O40: none of the three writes a register or the output. -/
theorem accumulatorWritersFrame : Obligations.AccumulatorWritersFrame := by
  intro s t v1 imm h
  obtain ⟨i, hi, hwrites, hprint⟩ : ∃ i, exec i s = .next t ∧ (∀ r, writesReg i r = false) ∧ i ≠ .print := by
    obtain h | h | h := h <;> exact ⟨_, h, fun _ => rfl, nofun⟩
  obtain ⟨hcount, hprog⟩ := exec_frame hi
  exact ⟨fun r => exec_readReg_of_not_writes hi (hwrites r), hcount, exec_out_of_ne_print hi hprint, hprog⟩

/-- Settles O41: neither writes a register or the accumulator; `bne` is not `print`, and `print` has no field to be out
of range. -/
theorem branchAndPrintFrame : Obligations.BranchAndPrintFrame := by
  refine fun s t v1 v2 imm => ⟨fun h => exec_out_of_ne_print h nofun, fun h => ?_, fun h => ?_⟩
  · rw [exec_wellFormed (List.forall_mem_nil _)] at h
    cases h
    rfl
  · obtain ⟨i, hi, hwrites, hacc⟩ : ∃ i, exec i s = .next t ∧ (∀ r, writesReg i r = false) ∧
        (accMode i.op).writes = false := by
      obtain h | h := h <;> exact ⟨_, h, fun _ => rfl, rfl⟩
    obtain ⟨hcount, hprog⟩ := exec_frame hi
    exact ⟨fun r => exec_readReg_of_not_writes hi (hwrites r), hcount, exec_acc_of_not_writes hi hacc, hprog⟩

/-- Settles O50: what the execute arms do with a register that is no written operand, and with one that is no read
operand. -/
theorem operandDirections : Obligations.OperandDirections := by
  refine ⟨fun i s t r h => exec_readReg_of_not_writes h, fun i s t r v hw h hr => ?_,
    fun _ _ _ => ⟨rfl, rfl, rfl, rfl, rfl, rfl, rfl, rfl, rfl⟩⟩
  obtain rfl : armResult i s = t := by simpa [exec_wellFormed hw] using h
  have hw' : i.WellFormed (s.writeReg r v).regCount := by rwa [State.writeReg_regCount]
  rw [exec_wellFormed hw', armResult_writeReg_of_not_reads hr]

end Sys2Proof.Machine
end

section
/-! SUPPORT. The proofs of the statements about boot, reset and the canonical form of a program memory
(spec/70_reset_and_hazards.md R180, R181; log entries 1 to 3), and about the status port (spec/10_state.md R28). -/

namespace Sys2Proof.Machine

/-! ### A loaded program -/

/-- R181, D4: a loaded program has its own length. -/
theorem Memory.ofBytes_len {bytes : List Byte} (h : bytes.length ≤ Config.maxProgramLength) :
    (Memory.ofBytes bytes).len.toNat = bytes.length := by
  rw [Memory.ofBytes, Memory.supplyAll_len, Memory.extendTo_len h]
  exact Nat.zero_max _

/-- R45, R181: a loaded program reads at each address as its byte sequence does. -/
theorem Memory.ofBytes_byteAt {bytes : List Byte} (h : bytes.length ≤ Config.maxProgramLength) (a : Nat) :
    (Memory.ofBytes bytes).byteAt a = bytes[a]? := by
  have hlen := Memory.ofBytes_len h
  rcases Nat.lt_or_ge a bytes.length with ha | ha
  · rw [Memory.ofBytes, Memory.supplyAll_len] at hlen
    rw [Memory.ofBytes, Memory.byteAt_supplyAll (Memory.extendTo_wf rfl _) (by omega), if_pos (by omega),
      Nat.sub_zero]
  · rw [Memory.byteAt_eq_none (by omega), List.getElem?_eq_none ha]

/-! ### The canonical form -/

/-- In canonical cells the first entry is within the bounds and lists a byte that needs listing, and the rest follow
it. -/
theorem Memory.cellsWf_cons {lo hi a : Nat} {b : Byte} {rest : List Host.Cell}
    (h : Memory.cellsWf lo hi ((a, b) :: rest) = true) :
    lo ≤ a ∧ a < hi ∧ b ≠ Memory.unlisted ∧ Memory.cellsWf (a + 1) hi rest = true := by
  simp only [Memory.cellsWf, Bool.and_eq_true, decide_eq_true_eq] at h
  obtain ⟨⟨⟨hlo, hhi⟩, hb⟩, hrest⟩ := h
  exact ⟨hlo, hhi, hb, hrest⟩

/-- Canonical cells list nothing before their first entry. -/
theorem Memory.lookup_before_cons {lo hi a x : Nat} {b : Byte} {rest : List Host.Cell}
    (h : Memory.cellsWf lo hi ((a, b) :: rest) = true) (hx : x < a) :
    Memory.lookup ((a, b) :: rest) x = Memory.unlisted := by
  obtain ⟨-, -, -, hrest⟩ := Memory.cellsWf_cons h
  rw [Memory.lookup, if_neg (Nat.ne_of_gt hx), Memory.lookup_below hrest (by omega)]

/-- The first entry is found. -/
theorem Memory.lookup_cons_self (a : Nat) (b : Byte) (rest : List Host.Cell) :
    Memory.lookup ((a, b) :: rest) a = b :=
  if_pos rfl

/-- Canonical cells that give the same byte to every address below their bound are equal (log entry 3). -/
theorem Memory.cells_eq_of_lookup {lo hi : Nat} {cells cells' : List Host.Cell}
    (hw : Memory.cellsWf lo hi cells = true) (hw' : Memory.cellsWf lo hi cells' = true)
    (h : ∀ a, a < hi → Memory.lookup cells a = Memory.lookup cells' a) : cells = cells' := by
  induction cells generalizing lo cells' with
  | nil =>
    cases cells' with
    | nil => rfl
    | cons c' rest' =>
      obtain ⟨a', b'⟩ := c'
      obtain ⟨-, hhi', hb', -⟩ := Memory.cellsWf_cons hw'
      have hsame := h a' hhi'
      rw [Memory.lookup_cons_self] at hsame
      exact absurd hsame.symm hb'
  | cons c rest ih =>
    obtain ⟨a, b⟩ := c
    obtain ⟨-, hhi, hb, hrest⟩ := Memory.cellsWf_cons hw
    have hsame := h a hhi
    rw [Memory.lookup_cons_self] at hsame
    cases cells' with
    | nil => exact absurd hsame hb
    | cons c' rest' =>
      obtain ⟨a', b'⟩ := c'
      obtain ⟨-, hhi', hb', hrest'⟩ := Memory.cellsWf_cons hw'
      have hsame' := h a' hhi'
      rw [Memory.lookup_cons_self] at hsame'
      rcases Nat.lt_trichotomy a a' with hlt | rfl | hlt
      · exact absurd (hsame.trans (Memory.lookup_before_cons hw' hlt)) hb
      · rw [Memory.lookup_cons_self] at hsame
        subst hsame
        refine congrArg _ (ih hrest hrest' fun x hx => ?_)
        have hx' := h x hx
        by_cases hxa : a = x
        · subst hxa
          rw [Memory.lookup_below hrest (Nat.lt_succ_self _), Memory.lookup_below hrest' (Nat.lt_succ_self _)]
        · rwa [Memory.lookup, Memory.lookup, if_neg hxa, if_neg hxa] at hx'
      · exact absurd (hsame'.symm.trans (Memory.lookup_before_cons hw hlt)) hb'

/-- R45: programs that read alike at every address are equally long. -/
theorem Memory.len_eq_of_byteAt {m n : Memory} (h : ∀ a, m.byteAt a = n.byteAt a) : m.len = n.len := by
  have hsame (a : Nat) : a < m.len.toNat ↔ a < n.len.toNat := by
    rw [← Memory.byteAt_isSome, ← Memory.byteAt_isSome, h]
  exact BitVec.eq_of_toNat_eq (Nat.le_antisymm (Nat.not_lt.1 fun hlt => Nat.lt_irrefl _ ((hsame _).1 hlt))
    (Nat.not_lt.1 fun hlt => Nat.lt_irrefl _ ((hsame _).2 hlt)))

/-! ### The statements -/

/-- Settles O45: the reset state is the created machine of 256 registers and the empty program. -/
theorem resetIsConfigured : Obligations.ResetIsConfigured := by
  have hcount : State.reset.regCount = 256 := State.created_regCount _ _
  refine ⟨⟨?_, ?_, State.reset_prog_wf⟩, hcount, rfl⟩ <;> rw [hcount] <;> decide

/-- Settles O46: the created machine has the register count and the program it was given, and the loaded program has
its length and its bytes. -/
theorem bootHoldsTheProgram : Obligations.BootHoldsTheProgram := by
  intro n program hmin hmax hlen
  have hcount : (State.boot n program).regCount = n := State.created_regCount _ _
  refine ⟨?_, hcount, Memory.ofBytes_len hlen, Memory.ofBytes_byteAt hlen⟩
  rw [State.Configured, hcount]
  exact ⟨hmin, hmax, Memory.ofBytes_wf program⟩

/-- Settles O47: the lengths agree where the program ends, and then the cells entry by entry. -/
theorem canonicalMemoriesAreEqual : Obligations.CanonicalMemoriesAreEqual := by
  rintro ⟨len, cells⟩ ⟨len', cells'⟩ hm hn h
  obtain rfl : len = len' := Memory.len_eq_of_byteAt h
  refine congrArg _ (Memory.cells_eq_of_lookup hm hn fun a ha => ?_)
  have hbyte := h a
  rw [Memory.byteAt, Memory.byteAt, if_pos ha, if_pos ha] at hbyte
  exact Option.some.inj hbyte

/-- Settles O48: the fields of the created machine. -/
theorem resetValues : Obligations.ResetValues := by
  intro s
  refine ⟨s.applyReset, rfl, State.created_regCount _ _, fun k hk => ?_, rfl, rfl, rfl, rfl, rfl, rfl, rfl⟩
  rw [State.applyReset, State.created_regCount] at hk
  rw [State.applyReset, State.created_regs, List.getElem?_replicate, if_pos hk]

/-- Settles O54: by the value of RUN, and of the reason of a fault. -/
theorem statusPortEncoding : Obligations.StatusPortEncoding := by
  intro s
  simp only [State.runStatePort, State.faultReasonPort]
  cases s.run with
  | running | halted => simp [RunState.code, RunState.faultCode]
  | faulted reason => cases reason <;> simp [RunState.code, RunState.faultCode, Fault.code]

end Sys2Proof.Machine
end

section
/-! SUPPORT. The proofs of the statements of spec/44_output.md: that `print` alone writes the output (R30), and the text
of a value (R151). -/

namespace Sys2Proof.Machine

/-! ### The output of one step -/

/-- R30: a step at anything but a `print` inside the program of a running machine leaves the output. -/
theorem step_out_of_not_print {s t : State} (h : step s = .next t)
    (hn : ¬ (s.run = .running ∧ s.pc.toNat < s.prog.len.toNat ∧ s.decoded = .instr .print)) : t.out = s.out := by
  obtain ⟨r, rfl⟩ | ⟨hr, hp, i, hd, -, rfl⟩ := step_run_or_arm h
  · rfl
  · have hi : i ≠ .print := fun e => hn ⟨hr, hp, e ▸ hd⟩
    rw [armResult_out, if_neg hi]

/-- R100: a step that leaves the output has no output event. -/
theorem State.outEvent_eq_none {s t : State} (h : step s = .next t) (hout : t.out = s.out) : s.outEvent = none := by
  rw [State.outEvent_of_step h, hout, List.drop_length, List.head?_nil]

/-- R151, R152: one more value in the output is its line after the text so far. -/
theorem renderOut_append {s t : State} {v : Word} (hout : t.out = s.out ++ [v]) :
    renderOut t = renderOut s ++ renderValue v := by
  rw [renderOut, hout, List.map_append, List.flatten_append, List.map_singleton, List.flatten_singleton, renderOut]

/-! ### Decimal digits -/

/-- A number below ten is its own digit; any other has its last digit after those of its tenth. -/
theorem decimalDigits_of_lt {n : Nat} (fuel : Nat) (h : n < 10) : decimalDigits (fuel + 1) n = [n] :=
  if_pos h

theorem decimalDigits_of_ge {n : Nat} (fuel : Nat) (h : 10 ≤ n) :
    decimalDigits (fuel + 1) n = decimalDigits fuel (n / 10) ++ [n % 10] :=
  if_neg (Nat.not_lt.2 h)

/-- With some fuel there is at least one digit. -/
theorem decimalDigits_length_pos (fuel n : Nat) : 1 ≤ (decimalDigits (fuel + 1) n).length := by
  rcases Nat.lt_or_ge n 10 with h | h
  · rw [decimalDigits_of_lt fuel h, List.length_singleton]
  · rw [decimalDigits_of_ge fuel h, List.length_append, List.length_singleton]
    exact Nat.le_add_left 1 _

/-- There are no more digits than fuel. -/
theorem decimalDigits_length_le (fuel n : Nat) : (decimalDigits fuel n).length ≤ fuel := by
  induction fuel generalizing n with
  | zero => exact Nat.le_refl 0
  | succ fuel ih =>
    rcases Nat.lt_or_ge n 10 with h | h
    · rw [decimalDigits_of_lt fuel h, List.length_singleton]
      exact Nat.le_add_left 1 fuel
    · rw [decimalDigits_of_ge fuel h, List.length_append, List.length_singleton]
      exact Nat.succ_le_succ (ih _)

/-- Every digit is below ten. -/
theorem decimalDigits_lt_ten {fuel n d : Nat} (hd : d ∈ decimalDigits fuel n) : d < 10 := by
  induction fuel generalizing n with
  | zero => cases hd
  | succ fuel ih =>
    rcases Nat.lt_or_ge n 10 with h | h
    · rw [decimalDigits_of_lt fuel h, List.mem_singleton] at hd
      exact hd ▸ h
    · rw [decimalDigits_of_ge fuel h, List.mem_append, List.mem_singleton] at hd
      obtain hd | rfl := hd
      · exact ih hd
      · exact Nat.mod_lt n (by decide)

/-- The number that digits stand for, the most significant first. -/
def digitsValue (ds : List Nat) : Nat :=
  ds.foldl (fun n d => 10 * n + d) 0

/-- A further digit counts one and the digits before it ten times what they did. -/
theorem digitsValue_append_singleton (ds : List Nat) (d : Nat) :
    digitsValue (ds ++ [d]) = 10 * digitsValue ds + d :=
  List.foldl_append

/-- Fuel enough for a number is, but one, enough for its tenth. -/
theorem div_ten_lt_pow {fuel n : Nat} (h : n < 10 ^ (fuel + 1)) : n / 10 < 10 ^ fuel :=
  Nat.div_lt_of_lt_mul (Nat.pow_succ' ▸ h)

/-- With enough fuel the digits stand for the number. -/
theorem digitsValue_decimalDigits {fuel n : Nat} (h : n < 10 ^ fuel) : digitsValue (decimalDigits fuel n) = n := by
  induction fuel generalizing n with
  | zero =>
    rw [Nat.lt_one_iff.1 h]
    rfl
  | succ fuel ih =>
    rcases Nat.lt_or_ge n 10 with hn | hn
    · rw [decimalDigits_of_lt fuel hn]
      exact Nat.zero_add n
    · rw [decimalDigits_of_ge fuel hn, digitsValue_append_singleton, ih (div_ten_lt_pow h), Nat.div_add_mod]

/-- With enough fuel only the number 0 has 0 for its first digit. -/
theorem decimalDigits_no_leading_zero {fuel n : Nat} (h : n < 10 ^ fuel)
    (hd : (decimalDigits fuel n).head? = some 0) : n = 0 := by
  induction fuel generalizing n with
  | zero => exact Nat.lt_one_iff.1 h
  | succ fuel ih =>
    rcases Nat.lt_or_ge n 10 with hn | hn
    · rw [decimalDigits_of_lt fuel hn, List.head?_cons] at hd
      exact Option.some.inj hd
    · have hdiv := div_ten_lt_pow h
      have htenth : digitsValue (decimalDigits fuel (n / 10)) = n / 10 := digitsValue_decimalDigits hdiv
      have hne : decimalDigits fuel (n / 10) ≠ [] := by
        intro hnil
        rw [hnil, digitsValue, List.foldl_nil] at htenth
        omega
      rw [decimalDigits_of_ge fuel hn, List.head?_append_of_ne_nil _ hne] at hd
      have hzero : n / 10 = 0 := ih hdiv hd
      omega

/-! ### The statements -/

/-- Settles O51: the step at a `print` appends `ACC`, which is its event and its line of text; any other step leaves the
output. -/
theorem outputOnlyByPrint : Obligations.OutputOnlyByPrint := by
  refine ⟨fun _ _ => rfl, fun s t h => ?_⟩
  by_cases hprint : s.run = .running ∧ s.pc.toNat < s.prog.len.toNat ∧ s.decoded = .instr .print
  · obtain ⟨hr, hp, hd⟩ := hprint
    have harm := step_wellFormed hr hp hd (List.forall_mem_nil _)
    obtain rfl : armResult .print s = t := by simpa [harm] using h
    exact .inl ⟨⟨hr, hp, hd⟩, rfl, State.outEvent_of_append h rfl, renderOut_append rfl⟩
  · have hout := step_out_of_not_print h hprint
    exact .inr ⟨hprint, hout, State.outEvent_eq_none h hout⟩

/-- Settles O53: ten digits of fuel are enough for a 32-bit value. -/
theorem renderingIsUnsignedDecimal : Obligations.RenderingIsUnsignedDecimal := by
  intro v
  have hfuel : v.toNat < 10 ^ 10 := Nat.lt_trans v.isLt (by decide)
  refine ⟨decimalDigits 10 v.toNat, rfl, decimalDigits_length_pos 9 _, decimalDigits_length_le 10 _,
    fun _ => decimalDigits_lt_ten, fun hd => ?_, digitsValue_decimalDigits hfuel⟩
  rw [decimalDigits_no_leading_zero hfuel hd]
  rfl

end Sys2Proof.Machine
end

section
/-! SUPPORT. The proofs of the statements about runs: branch targets (spec/43_control.md R142), a run that never ends,
clean runs and the observation of a run (spec/40_sequencer.md R98, spec/70_reset_and_hazards.md R184), and several
machines (spec/60_exceptions.md R169). -/

namespace Sys2Proof.Machine

/-! ### Taken branches -/

/-- R140, R142: the step at a `bne` with equal registers only goes to its target. -/
theorem step_bne_taken {s : State} {v1 v2 : RegIndex} {imm : Word} (hr : s.run = .running)
    (hp : s.pc.toNat < s.prog.len.toNat) (hd : s.decoded = .instr (.bne v1 v2 imm)) (h1 : v1.toNat < s.regCount)
    (h2 : v2.toNat < s.regCount) (heq : s.readReg v1 = s.readReg v2) : step s = .next { s with pc := imm } := by
  rw [step_wellFormed hr hp hd ((Instr.wellFormed_of_regFields_two rfl).2 ⟨h1, h2⟩), armResult_bne_taken imm heq]

/-- R183: a state that its step answers is what any number of steps gives. -/
theorem steps_eq_of_step_eq {s : State} (h : step s = .next s) (k : Nat) : steps k s = .next s := by
  induction k with
  | zero => rfl
  | succ k ih => simp only [steps, h, ih]

/-! ### Clean runs -/

/-- R98: a fault is reached only by the step of a running machine, inside the program, that does not execute a
well-formed instruction. -/
theorem step_not_faulted {s t : State} (h : step s = .next t) (hs : ∀ reason, s.run ≠ .faulted reason)
    (hexec : s.run = .running → s.pc.toNat < s.prog.len.toNat →
      ∃ i, s.decoded = .instr i ∧ i.WellFormed s.regCount) (reason : Fault) : t.run ≠ .faulted reason := by
  by_cases hr : s.run = .running
  · rcases Nat.lt_or_ge s.pc.toNat s.prog.len.toNat with hp | hend
    · obtain ⟨i, hd, hw⟩ := hexec hr hp
      obtain ⟨u, hu, hrun⟩ := step_running_of_wellFormed hr hp hd hw
      obtain rfl : u = t := by simpa [hu] using h
      rw [hrun]
      nofun
    · obtain ⟨hhalted, -⟩ := step_run_iff hr h
      rw [hhalted.2 hend]
      nofun
  · rw [step_ended hr h]
    exact hs reason

/-- R90, R98: a running machine whose step does not fault executes, inside the program, a well-formed instruction. -/
theorem executes_of_step_not_faulted {s t : State} (h : step s = .next t) (hr : s.run = .running)
    (hp : s.pc.toNat < s.prog.len.toNat) (ht : ∀ reason, t.run ≠ .faulted reason) :
    ∃ i, s.decoded = .instr i ∧ i.WellFormed s.regCount := by
  obtain ⟨hhalted, hunknown, htruncated, hrange⟩ := step_run_iff hr h
  cases hd : s.decoded with
  | unknownOpcode => exact absurd (hunknown.2 ⟨hp, hd⟩) (ht _)
  | truncated => exact absurd (htruncated.2 ⟨hp, hd⟩) (ht _)
  | instr i => exact ⟨i, rfl, by_contra fun hw => ht _ (hrange.2 ⟨hp, i, hd, hw⟩)⟩

/-! ### The end of a run -/

/-- R183: reaching is the reflexive and transitive closure of a step that answers. -/
theorem Reaches.reflTransGen {s t : State} (h : Reaches s t) :
    Relation.ReflTransGen (fun u v => step u = .next v) s t := by
  induction h with
  | start => exact .refl
  | more _ hnext ih => exact ih.tail hnext

theorem Reaches.of_reflTransGen {s t : State} (h : Relation.ReflTransGen (fun u v => step u = .next v) s t) :
    Reaches s t := by
  induction h with
  | refl => exact .start
  | tail _ hnext ih => exact .more ih hnext

/-- R90: a step has one answer, so of two states that one state reaches, one reaches the other. -/
theorem Reaches.total {s t u : State} (ht : Reaches s t) (hu : Reaches s u) : Reaches t u ∨ Reaches u t := by
  have hunique : Relator.RightUnique fun u v : State => step u = .next v := fun u v w hv hw => by
    cases hv.symm.trans hw
    rfl
  exact (Relation.ReflTransGen.total_of_right_unique hunique ht.reflTransGen hu.reflTransGen).imp
    Reaches.of_reflTransGen Reaches.of_reflTransGen

/-- R98, R184: a run has one ended state. -/
theorem Reaches.ended_unique {s t u : State} (ht : Reaches s t) (hu : Reaches s u) (het : t.Ended) (heu : u.Ended) :
    t = u := by
  obtain h | h := ht.total hu
  · exact (h.eq_of_ended het).symm
  · exact h.eq_of_ended heu

/-! ### Several machines -/

/-- R169: an event of a machine among several puts its answer in that machine's place. -/
theorem onEventAt_eq_set {ms : List State} {k : Nat} {e : HostEvent} {s t : State} (hs : ms[k]? = some s)
    (ht : onEvent s e = .next t) : onEventAt ms k e = ms.set k t := by
  simp only [onEventAt, hs, ht]

/-- R169: an event of a machine that is not there changes nothing. -/
theorem onEventAt_eq_self {ms : List State} {k : Nat} (e : HostEvent) (hs : ms[k]? = none) : onEventAt ms k e = ms := by
  simp only [onEventAt, hs]

/-! ### The statements -/

/-- Settles O56: the taken branch writes `PC` alone, and at the new `PC` the next step is in the phase that the target's
bytes decide. -/
theorem takenBranchTargets : Obligations.TakenBranchTargets := by
  intro s v1 v2 imm hr hp hd h1 h2 heq
  have hrun : State.run { s with pc := imm } = .running := hr
  exact ⟨_, step_bne_taken hr hp hd h1 h2 heq, rfl, fun hend => step_atEnd hrun hend,
    fun _ hb h8 => step_unknown hrun hb h8, fun _ hb hlen => step_truncated hrun hb hlen,
    fun _ hbytes => step_of_encoding hrun hbytes⟩

/-- Settles O57: a register is equal to itself, so the branch is taken, to where the machine is. -/
theorem selfBranchNeverEnds : Obligations.SelfBranchNeverEnds :=
  fun _ _ k hr hp hv hd => steps_eq_of_step_eq (step_bne_taken hr hp hd hv hv rfl) k

/-- Settles O58: a run is clean by induction on its steps when each executes, and each step executes when the state
after it is not Faulted; an ended state that is not Faulted is Halted. -/
theorem neverFaultsExactlyWhenAllExecutes : Obligations.NeverFaultsExactlyWhenAllExecutes := by
  refine fun s hr => ⟨⟨fun hclean t hreach htr htp => ?_, fun hexec t hreach => ?_⟩, fun hclean t hreach hend => ?_⟩
  · obtain ⟨u, hu⟩ := step_next t
    exact executes_of_step_not_faulted hu htr htp (hclean u (.more hreach hu))
  · induction hreach with
    | start => rw [hr]; nofun
    | more hreach hnext ih => exact step_not_faulted hnext ih (hexec _ hreach)
  · cases htr : t.run with
    | running => exact absurd htr hend
    | halted => exact htr
    | faulted reason => exact absurd htr (hclean t hreach reason)

/-- Settles O59: a run has one ended state. -/
theorem runHasOneObservation : Obligations.RunHasOneObservation :=
  fun _ _ _ ht hu het heu => congrArg State.observation (ht.ended_unique hu het heu)

/-- Settles O60: the event's answer takes the place of its own machine alone. -/
theorem machinesAreIsolated : Obligations.MachinesAreIsolated := by
  refine ⟨fun ms j k e hne => ?_, fun ms k e s hs => ?_⟩
  · cases hs : ms[k]? with
    | none => rw [onEventAt_eq_self e hs]
    | some s =>
      obtain ⟨t, ht⟩ := everyEventAnswersNextState s e
      rw [onEventAt_eq_set hs ht, List.getElem?_set_ne hne.symm]
  · obtain ⟨t, ht⟩ := everyEventAnswersNextState s e
    obtain ⟨hk, -⟩ := List.getElem?_eq_some_iff.1 hs
    exact ⟨t, ht, by rw [onEventAt_eq_set hs ht, List.getElem?_set_self hk]⟩

end Sys2Proof.Machine
end
